-- ==== Sys2Proof/Word.lean ====
section
/-! DEFINITION. The word types of the core (00_scope R8 to R10, R22, R23; 10_state R30, R33, R34).
Registers, memory bytes and addresses under computation are bit vectors, read as unsigned numbers; a memory
cell's key, a pixel coordinate and a call depth are plain numbers. -/

namespace Sys2Proof

/-- An 8-bit value: a general register, a timer, a byte of memory. -/
abbrev Byte := BitVec 8

/-- A 16-bit value: `I`, `PC`, a stack entry, the keyboard mask, an opcode. -/
abbrev Word := BitVec 16

/-- The 12-bit address field `nnn` (30_encoding R82). -/
abbrev Addr12 := BitVec 12

/-- A nibble, one of the four fields of an opcode (30_encoding R81). -/
abbrev Nibble := BitVec 4

/-- A register index `x` or `y`, 0 to 15: "always valid by construction" (10_state R30). -/
abbrev Reg := Fin 16

/-- VF, the sixteenth register and the only flag (10_state R31). -/
def VF : Reg := 15

end Sys2Proof
end

