-- ==== Sys2Proof/Config.lean ====
section
/-! DEFINITION. What is fixed for one machine (00_scope R7 to R21) and the free value of the model.
The parameters the spec leaves to the host or to the implementation are the record `Params`; a state carries one
(log entry 2), so every statement about all states is a statement about all parameters. -/

namespace Sys2Proof

/-- `MEM_SIZE` (R7). -/
abbrev memSize : Nat := 4096
/-- `STACK_DEPTH` (R10). -/
abbrev stackDepth : Nat := 16
/-- `WIDTH` (R11). -/
abbrev width : Nat := 64
/-- `FONT_BASE` (R13). -/
abbrev fontBase : Nat := 0
/-- `FONT_SIZE` (R13). -/
abbrev fontSize : Nat := 80
/-- `GLYPH_BYTES` (R13). -/
abbrev glyphBytes : Nat := 5
/-- `PROG_BASE` (R14). -/
abbrev progBase : Nat := 0x200
/-- `TIMER_HZ` (R15, C9): exactly 60 periods a second. -/
abbrev timerHz : Nat := 60

/-- `UNIMPL_POLICY` (R17): what follows an unimplemented instruction. -/
inductive UnimplPolicy where
  | halt
  | reset
deriving DecidableEq, Repr

/-- `KEY_RANGE_POLICY` (R18): SKP and SKNP with a register value above `0x0F`. -/
inductive KeyRangePolicy where
  | fault
  | lowNibble
  | notPressed
deriving DecidableEq, Repr

/-- `TIMER_ACCOUNTING` (R19): how elapsed periods are counted across timer updates. -/
inductive TimerAccounting where
  | driftFree
  | anchorNow
deriving DecidableEq, Repr

/-- An RGB triplet of the host's view of the framebuffer (R20, 60_exceptions R219). The spec gives a component no width or
range; that each is 8 bits is a DESIGN CHOICE (log entry 18): unsafe for a claim about a component's range. -/
structure Rgb where
  r : Byte
  g : Byte
  b : Byte
deriving DecidableEq, Repr

/-- The parameters of the core that the spec does not fix (00_scope, section 3). -/
structure Params where
  /-- `HEIGHT` (R12). -/
  height : Nat
  /-- `TS_HZ` (R16): timestamp units per second. -/
  tsHz : Nat
  /-- `UNIMPL_POLICY` (R17). -/
  unimplPolicy : UnimplPolicy
  /-- `KEY_RANGE_POLICY` (R18). -/
  keyRangePolicy : KeyRangePolicy
  /-- `TIMER_ACCOUNTING` (R19). -/
  timerAccounting : TimerAccounting
  /-- `ON_RGB` (R20). -/
  onRgb : Rgb
  /-- `OFF_RGB` (R20). -/
  offRgb : Rgb
  /-- `FONT` (R21): the 80 bytes the host loads. -/
  font : Vector Byte 80
deriving DecidableEq, Repr

/-- The conventional hex font (93_implementation_defined G2), `FONT` of the state after reset.
PRESUMED (log entry 3): general knowledge, no rule depends on it; unsafe for a claim about its bytes. -/
def Config.standardFont : Vector Byte 80 := #v[
  0xF0, 0x90, 0x90, 0x90, 0xF0, 0x20, 0x60, 0x20, 0x20, 0x70,
  0xF0, 0x10, 0xF0, 0x80, 0xF0, 0xF0, 0x10, 0xF0, 0x10, 0xF0,
  0x90, 0x90, 0xF0, 0x10, 0x10, 0xF0, 0x80, 0xF0, 0x10, 0xF0,
  0xF0, 0x80, 0xF0, 0x90, 0xF0, 0xF0, 0x10, 0x20, 0x40, 0x40,
  0xF0, 0x90, 0xF0, 0x90, 0xF0, 0xF0, 0x90, 0xF0, 0x10, 0xF0,
  0xF0, 0x90, 0xF0, 0x90, 0x90, 0xE0, 0x90, 0xE0, 0x90, 0xE0,
  0xF0, 0x80, 0x80, 0x80, 0xF0, 0xE0, 0x90, 0x90, 0x90, 0xE0,
  0xF0, 0x80, 0xF0, 0x80, 0xF0, 0xF0, 0x80, 0xF0, 0x80, 0x80]

/-- The parameters the state after reset carries: the defaults of 95_test_vectors (`HEIGHT = 32`, `halt`, `fault`,
`drift_free`, `TS_HZ = 1000`) and, for the palette and the font, values of the model.
DESIGN CHOICE (log entry 3): unsafe for a claim about this one record; statements quantify over every record. -/
def Config.defaults : Params where
  height := 32
  tsHz := 1000
  unimplPolicy := .halt
  keyRangePolicy := .fault
  timerAccounting := .driftFree
  onRgb := ⟨0xFF, 0xFF, 0xFF⟩
  offRgb := ⟨0x00, 0x00, 0x00⟩
  font := Config.standardFont

/-- The random byte of the `n`-th draw (00_scope R27, D14): a FREE VALUE, of which nothing is known, neither
distribution nor independence (log entry 1; safe). -/
opaque Config.randomByte : Nat → Byte

end Sys2Proof
end

