-- ==== Sys2Proof/Syntax.lean ====
section
/-! DEFINITION. The 34 instructions of the opcode map (30_encoding R84), one constructor per row of
spec/opcode_table.json, with the operand fields of R82. -/

namespace Sys2Proof

/-- The instruction set. `x`, `y` are register indices, `kk` the byte operand, `nnn` the 12-bit address, `n` the
row count of DRW. -/
inductive Instr where
  /-- `00E0`, 43_display R161. -/
  | cls
  /-- `00EE`, 40_control_flow R101. -/
  | ret
  /-- `1nnn`, R102. -/
  | jp (nnn : Addr12)
  /-- `2nnn`, R103. -/
  | call (nnn : Addr12)
  /-- `3xkk`, R104. -/
  | seImm (x : Reg) (kk : Byte)
  /-- `4xkk`, R105. -/
  | sneImm (x : Reg) (kk : Byte)
  /-- `5xy0`, R106. -/
  | seReg (x y : Reg)
  /-- `6xkk`, 41_alu R121. -/
  | ldImm (x : Reg) (kk : Byte)
  /-- `7xkk`, R122. -/
  | addImm (x : Reg) (kk : Byte)
  /-- `8xy0`, R123. -/
  | ldReg (x y : Reg)
  /-- `8xy1`, R124. -/
  | orReg (x y : Reg)
  /-- `8xy2`, R125. -/
  | andReg (x y : Reg)
  /-- `8xy3`, R126. -/
  | xorReg (x y : Reg)
  /-- `8xy4`, R127. -/
  | addReg (x y : Reg)
  /-- `8xy5`, R128. -/
  | sub (x y : Reg)
  /-- `8xy6`, R129; `y` is decoded and not used (30_encoding R89). -/
  | shr (x y : Reg)
  /-- `8xy7`, R130. -/
  | subn (x y : Reg)
  /-- `8xyE`, R131; `y` is decoded and not used (30_encoding R89). -/
  | shl (x y : Reg)
  /-- `9xy0`, 40_control_flow R107. -/
  | sneReg (x y : Reg)
  /-- `Annn`, 42_index_memory R141. -/
  | ldI (nnn : Addr12)
  /-- `Bnnn`, 40_control_flow R108. -/
  | jpV0 (nnn : Addr12)
  /-- `Cxkk`, 41_alu R132. -/
  | rnd (x : Reg) (kk : Byte)
  /-- `Dxyn`, 43_display R162. -/
  | drw (x y : Reg) (n : Fin 16)
  /-- `Ex9E`, 44_keys_timers R181. -/
  | skp (x : Reg)
  /-- `ExA1`, R182. -/
  | sknp (x : Reg)
  /-- `Fx07`, R183. -/
  | ldVxDt (x : Reg)
  /-- `Fx0A`, R184. -/
  | ldVxK (x : Reg)
  /-- `Fx15`, R185. -/
  | ldDtVx (x : Reg)
  /-- `Fx18`, R186. -/
  | ldStVx (x : Reg)
  /-- `Fx1E`, 42_index_memory R142. -/
  | addIVx (x : Reg)
  /-- `Fx29`, R143. -/
  | ldFVx (x : Reg)
  /-- `Fx33`, R144. -/
  | ldBVx (x : Reg)
  /-- `Fx55`, R145. -/
  | ldMemVx (x : Reg)
  /-- `Fx65`, R146. -/
  | ldVxMem (x : Reg)
deriving DecidableEq, Repr

/-- The mnemonic of an instruction's row in spec/opcode_table.json. -/
def Instr.mnemonic : Instr → String
  | .cls => "CLS"
  | .ret => "RET"
  | .jp _ => "JP"
  | .call _ => "CALL"
  | .seImm _ _ => "SE_IMM"
  | .sneImm _ _ => "SNE_IMM"
  | .seReg _ _ => "SE_REG"
  | .ldImm _ _ => "LD_IMM"
  | .addImm _ _ => "ADD_IMM"
  | .ldReg _ _ => "LD_REG"
  | .orReg _ _ => "OR"
  | .andReg _ _ => "AND"
  | .xorReg _ _ => "XOR"
  | .addReg _ _ => "ADD_REG"
  | .sub _ _ => "SUB"
  | .shr _ _ => "SHR"
  | .subn _ _ => "SUBN"
  | .shl _ _ => "SHL"
  | .sneReg _ _ => "SNE_REG"
  | .ldI _ => "LD_I"
  | .jpV0 _ => "JP_V0"
  | .rnd _ _ => "RND"
  | .drw _ _ _ => "DRW"
  | .skp _ => "SKP"
  | .sknp _ => "SKNP"
  | .ldVxDt _ => "LD_VX_DT"
  | .ldVxK _ => "LD_VX_K"
  | .ldDtVx _ => "LD_DT_VX"
  | .ldStVx _ => "LD_ST_VX"
  | .addIVx _ => "ADD_I_VX"
  | .ldFVx _ => "LD_F_VX"
  | .ldBVx _ => "LD_B_VX"
  | .ldMemVx _ => "LD_MEM_VX"
  | .ldVxMem _ => "LD_VX_MEM"

/-- One operand of an instruction as a number, and how many bits of the word it has (30_encoding R82). -/
structure OperandField where
  value : Nat
  bits : Nat
deriving DecidableEq, Repr

/-- One row of the opcode map: a word is the row's instruction when `word &&& mask = pattern` (30_encoding R84). -/
structure OpcodeRow where
  mnemonic : String
  mask : Word
  pattern : Word
deriving DecidableEq, Repr

/-- Why bytes are not an instruction. -/
inductive DecodeError where
  /-- Fewer than the two bytes every instruction has (30_encoding R83). -/
  | truncated
  /-- The word matches no row of the opcode map (R88). -/
  | unimplemented (op : Word)
deriving DecidableEq, Repr

end Sys2Proof
end

