-- ==== Sys2Proof/WellFormed.lean ====
section
/-! DEFINITION. Well-formed instructions and parameters. An instruction's operands carry their width in their
type ("register indices are always valid by construction", 10_state R30), so the check below accepts every
`Instr`; it is written out so that it can be read and proved (Laws/PerInstr). Parameters are checked against the
bounds 00_scope states. -/

namespace Sys2Proof

/-- An operand fits its field of the word. -/
def OperandField.fits (o : OperandField) : Bool := decide (o.value < 2 ^ o.bits)

/-- The operand fields of an instruction (30_encoding R82): four bits for a register index and for the row count,
eight for the byte operand, twelve for an address. -/
def Instr.operands : Instr → List OperandField
  | .cls | .ret => []
  | .jp nnn | .call nnn | .ldI nnn | .jpV0 nnn => [⟨nnn.toNat, 12⟩]
  | .seImm x kk | .sneImm x kk | .ldImm x kk | .addImm x kk | .rnd x kk => [⟨x, 4⟩, ⟨kk.toNat, 8⟩]
  | .seReg x y | .sneReg x y | .ldReg x y | .orReg x y | .andReg x y | .xorReg x y | .addReg x y | .sub x y
  | .shr x y | .subn x y | .shl x y => [⟨x, 4⟩, ⟨y, 4⟩]
  | .drw x y n => [⟨x, 4⟩, ⟨y, 4⟩, ⟨n, 4⟩]
  | .skp x | .sknp x | .ldVxDt x | .ldVxK x | .ldDtVx x | .ldStVx x | .addIVx x | .ldFVx x | .ldBVx x
  | .ldMemVx x | .ldVxMem x => [⟨x, 4⟩]

/-- Every operand fits its field. -/
def Instr.wf (i : Instr) : Bool := i.operands.all OperandField.fits

/-- Legal parameters: `HEIGHT >= 1` (R12), `TS_HZ` positive (R16), the two palette entries differ (R20).
`FONT` has its 80 bytes by type (R21). -/
def Params.wf (p : Params) : Bool :=
  decide (1 ≤ p.height) && decide (1 ≤ p.tsHz) && decide (p.onRgb ≠ p.offRgb)

end Sys2Proof
end

