-- ==== Sys2Proof/Decode.lean ====
section
/-! DEFINITION. From bytes to instructions and back (30_encoding R62, R80 to R90). `decode` is total on words and
`decodeBytes` on any bytes, rejecting by name; `encode` is written from the same patterns. -/

namespace Sys2Proof

/-- The 16-bit word of two bytes, the first high-order (20_memory R62). -/
def wordOfBytes (b0 b1 : Byte) : Word := b0 ++ b1

/-- The high byte of a word, which lies at the lower address (R62). -/
def highByte (w : Word) : Byte := w.extractLsb' 8 8
/-- The low byte of a word. -/
def lowByte (w : Word) : Byte := w.extractLsb' 0 8

/-- The word of four nibbles, most significant first (R81). -/
def ofNibbles (n0 n1 n2 n3 : Nibble) : Word := n0 ++ n1 ++ n2 ++ n3

/-- `n0 = op[15:12]` (R81). -/
def nib0 (op : Word) : Nibble := op.extractLsb' 12 4
/-- `n1 = op[11:8]`. -/
def nib1 (op : Word) : Nibble := op.extractLsb' 8 4
/-- `n2 = op[7:4]`. -/
def nib2 (op : Word) : Nibble := op.extractLsb' 4 4
/-- `n3 = op[3:0]`. -/
def nib3 (op : Word) : Nibble := op.extractLsb' 0 4

/-- A nibble read as a register index or a row count. -/
def regOfNibble (b : Nibble) : Reg := b.toFin
/-- A register index or a row count as the nibble that encodes it. -/
def nibbleOfReg (x : Reg) : Nibble := BitVec.ofFin x

/-- `x = n1` (R82). -/
def fieldX (op : Word) : Reg := regOfNibble (nib1 op)
/-- `y = n2` (R82). -/
def fieldY (op : Word) : Reg := regOfNibble (nib2 op)
/-- `n = n3` (R82). -/
def fieldN (op : Word) : Fin 16 := regOfNibble (nib3 op)
/-- `kk = op[7:0]` (R82). -/
def fieldKk (op : Word) : Byte := op.extractLsb' 0 8
/-- `nnn = op[11:0]` (R82). -/
def fieldNnn (op : Word) : Addr12 := op.extractLsb' 0 12

/-- Group 0 (R85): `00E0` and `00EE`, nothing else. -/
def decodeGroup0 (op : Word) : Option Instr :=
  if op = 0x00E0 then some .cls else if op = 0x00EE then some .ret else none

/-- Group 8 (R86), selected by the last nibble. -/
def decodeGroup8 (op : Word) : Option Instr :=
  match nib3 op with
  | 0x0#4 => some (.ldReg (fieldX op) (fieldY op))
  | 0x1#4 => some (.orReg (fieldX op) (fieldY op))
  | 0x2#4 => some (.andReg (fieldX op) (fieldY op))
  | 0x3#4 => some (.xorReg (fieldX op) (fieldY op))
  | 0x4#4 => some (.addReg (fieldX op) (fieldY op))
  | 0x5#4 => some (.sub (fieldX op) (fieldY op))
  | 0x6#4 => some (.shr (fieldX op) (fieldY op))
  | 0x7#4 => some (.subn (fieldX op) (fieldY op))
  | 0xE#4 => some (.shl (fieldX op) (fieldY op))
  | _ => none

/-- Group E (R87), selected by the low byte. -/
def decodeGroupE (op : Word) : Option Instr :=
  match fieldKk op with
  | 0x9E#8 => some (.skp (fieldX op))
  | 0xA1#8 => some (.sknp (fieldX op))
  | _ => none

/-- Group F (R87), selected by the low byte. -/
def decodeGroupF (op : Word) : Option Instr :=
  match fieldKk op with
  | 0x07#8 => some (.ldVxDt (fieldX op))
  | 0x0A#8 => some (.ldVxK (fieldX op))
  | 0x15#8 => some (.ldDtVx (fieldX op))
  | 0x18#8 => some (.ldStVx (fieldX op))
  | 0x1E#8 => some (.addIVx (fieldX op))
  | 0x29#8 => some (.ldFVx (fieldX op))
  | 0x33#8 => some (.ldBVx (fieldX op))
  | 0x55#8 => some (.ldMemVx (fieldX op))
  | 0x65#8 => some (.ldVxMem (fieldX op))
  | _ => none

/-- The instruction a word is, or none for an unimplemented word (R84 to R88). -/
def decode (op : Word) : Option Instr :=
  match nib0 op with
  | 0x0#4 => decodeGroup0 op
  | 0x1#4 => some (.jp (fieldNnn op))
  | 0x2#4 => some (.call (fieldNnn op))
  | 0x3#4 => some (.seImm (fieldX op) (fieldKk op))
  | 0x4#4 => some (.sneImm (fieldX op) (fieldKk op))
  | 0x5#4 => if nib3 op = 0 then some (.seReg (fieldX op) (fieldY op)) else none
  | 0x6#4 => some (.ldImm (fieldX op) (fieldKk op))
  | 0x7#4 => some (.addImm (fieldX op) (fieldKk op))
  | 0x8#4 => decodeGroup8 op
  | 0x9#4 => if nib3 op = 0 then some (.sneReg (fieldX op) (fieldY op)) else none
  | 0xA#4 => some (.ldI (fieldNnn op))
  | 0xB#4 => some (.jpV0 (fieldNnn op))
  | 0xC#4 => some (.rnd (fieldX op) (fieldKk op))
  | 0xD#4 => some (.drw (fieldX op) (fieldY op) (fieldN op))
  | 0xE#4 => decodeGroupE op
  | _ => decodeGroupF op

/-- Decoding of a byte stream: the instruction of its first two bytes and the rest, or why there is none. -/
def decodeBytes : List Byte → Except DecodeError (Instr × List Byte)
  | b0 :: b1 :: rest =>
    match decode (wordOfBytes b0 b1) with
    | some i => .ok (i, rest)
    | none => .error (.unimplemented (wordOfBytes b0 b1))
  | _ => .error .truncated

/-- A word of pattern `gnnn`. -/
def encAddr (g : Nibble) (nnn : Addr12) : Word := g ++ nnn
/-- A word of pattern `gxkk`, also used for `gxNN` with the literal low byte `NN`. -/
def encByte (g : Nibble) (x : Reg) (kk : Byte) : Word := g ++ nibbleOfReg x ++ kk
/-- A word of pattern `gxyn`, also used for `gxyN` with the literal last nibble `N`. -/
def encRegs (g : Nibble) (x y : Reg) (n : Nibble) : Word := ofNibbles g (nibbleOfReg x) (nibbleOfReg y) n

/-- The word of an instruction, from its pattern in R84. -/
def encode : Instr → Word
  | .cls => 0x00E0
  | .ret => 0x00EE
  | .jp nnn => encAddr 0x1 nnn
  | .call nnn => encAddr 0x2 nnn
  | .seImm x kk => encByte 0x3 x kk
  | .sneImm x kk => encByte 0x4 x kk
  | .seReg x y => encRegs 0x5 x y 0x0
  | .ldImm x kk => encByte 0x6 x kk
  | .addImm x kk => encByte 0x7 x kk
  | .ldReg x y => encRegs 0x8 x y 0x0
  | .orReg x y => encRegs 0x8 x y 0x1
  | .andReg x y => encRegs 0x8 x y 0x2
  | .xorReg x y => encRegs 0x8 x y 0x3
  | .addReg x y => encRegs 0x8 x y 0x4
  | .sub x y => encRegs 0x8 x y 0x5
  | .shr x y => encRegs 0x8 x y 0x6
  | .subn x y => encRegs 0x8 x y 0x7
  | .shl x y => encRegs 0x8 x y 0xE
  | .sneReg x y => encRegs 0x9 x y 0x0
  | .ldI nnn => encAddr 0xA nnn
  | .jpV0 nnn => encAddr 0xB nnn
  | .rnd x kk => encByte 0xC x kk
  | .drw x y n => encRegs 0xD x y (nibbleOfReg n)
  | .skp x => encByte 0xE x 0x9E
  | .sknp x => encByte 0xE x 0xA1
  | .ldVxDt x => encByte 0xF x 0x07
  | .ldVxK x => encByte 0xF x 0x0A
  | .ldDtVx x => encByte 0xF x 0x15
  | .ldStVx x => encByte 0xF x 0x18
  | .addIVx x => encByte 0xF x 0x1E
  | .ldFVx x => encByte 0xF x 0x29
  | .ldBVx x => encByte 0xF x 0x33
  | .ldMemVx x => encByte 0xF x 0x55
  | .ldVxMem x => encByte 0xF x 0x65

/-- The bytes of an instruction as they lie in memory (20_memory R62). -/
def encodeBytes (i : Instr) : List Byte := [highByte (encode i), lowByte (encode i)]

/-- The rows of the opcode map that fix the whole word or its group alone (R84). -/
def opcodeRowsByGroup : List OpcodeRow := [
  ⟨"CLS", 0xFFFF, 0x00E0⟩, ⟨"RET", 0xFFFF, 0x00EE⟩, ⟨"JP", 0xF000, 0x1000⟩, ⟨"CALL", 0xF000, 0x2000⟩,
  ⟨"SE_IMM", 0xF000, 0x3000⟩, ⟨"SNE_IMM", 0xF000, 0x4000⟩, ⟨"LD_IMM", 0xF000, 0x6000⟩,
  ⟨"ADD_IMM", 0xF000, 0x7000⟩, ⟨"LD_I", 0xF000, 0xA000⟩, ⟨"JP_V0", 0xF000, 0xB000⟩, ⟨"RND", 0xF000, 0xC000⟩,
  ⟨"DRW", 0xF000, 0xD000⟩]

/-- The rows with a literal last nibble (R84, R86). -/
def opcodeRowsByNibble : List OpcodeRow := [
  ⟨"SE_REG", 0xF00F, 0x5000⟩, ⟨"LD_REG", 0xF00F, 0x8000⟩, ⟨"OR", 0xF00F, 0x8001⟩, ⟨"AND", 0xF00F, 0x8002⟩,
  ⟨"XOR", 0xF00F, 0x8003⟩, ⟨"ADD_REG", 0xF00F, 0x8004⟩, ⟨"SUB", 0xF00F, 0x8005⟩, ⟨"SHR", 0xF00F, 0x8006⟩,
  ⟨"SUBN", 0xF00F, 0x8007⟩, ⟨"SHL", 0xF00F, 0x800E⟩, ⟨"SNE_REG", 0xF00F, 0x9000⟩]

/-- The rows with a literal low byte (R84, R87). -/
def opcodeRowsByByte : List OpcodeRow := [
  ⟨"SKP", 0xF0FF, 0xE09E⟩, ⟨"SKNP", 0xF0FF, 0xE0A1⟩, ⟨"LD_VX_DT", 0xF0FF, 0xF007⟩, ⟨"LD_VX_K", 0xF0FF, 0xF00A⟩,
  ⟨"LD_DT_VX", 0xF0FF, 0xF015⟩, ⟨"LD_ST_VX", 0xF0FF, 0xF018⟩, ⟨"ADD_I_VX", 0xF0FF, 0xF01E⟩,
  ⟨"LD_F_VX", 0xF0FF, 0xF029⟩, ⟨"LD_B_VX", 0xF0FF, 0xF033⟩, ⟨"LD_MEM_VX", 0xF0FF, 0xF055⟩,
  ⟨"LD_VX_MEM", 0xF0FF, 0xF065⟩]

/-- The opcode map (R84): 34 rows, transcribed from the spec's table and not used by `decode`. -/
def opcodeMap : List OpcodeRow := opcodeRowsByGroup ++ opcodeRowsByNibble ++ opcodeRowsByByte

/-- A word matches a row when `op & mask = match` (R84). -/
def OpcodeRow.matches (r : OpcodeRow) (op : Word) : Bool := op &&& r.mask == r.pattern

/-- The word whose bits are the low `nbits` bits of `w`, bit 0 the least significant; bits above are 0. -/
def tableWord (nbits w : Nat) : Word := BitVec.ofNat 16 (w % 2 ^ nbits)

/-- The instruction the decoder reads from a table word laid out as the core stores it, high byte first. -/
def decodeTableWord (nbits w : Nat) : Option Instr :=
  match decodeBytes [highByte (tableWord nbits w), lowByte (tableWord nbits w)] with
  | .ok (i, _) => some i
  | .error _ => none

end Sys2Proof
end

