-- ==== Sys2Proof/Machine/State.lean ====
section
/-! DEFINITION. The state of the core (10_state): plain data. `CoreState` is the spec's record and has exactly its fields.
`State`, on which the fixed types of `exec` and `step` run, is that record with the arguments those types have no place
for: `params` (log entry 2) and `draws` (log entry 1). -/

namespace Sys2Proof.Machine

/-- The kinds of fault a step can raise (60_exceptions R200). -/
inductive FaultKind where
  | stackUnderflow
  | stackOverflow
  | unimplemented
  | memoryRange
  | keyIndex
deriving DecidableEq, Repr

/-- A fault record (R201). Its `code` is a function of the kind (`FaultKind.code`), so it is not stored twice
(log entry 15). -/
structure FaultRecord where
  kind : FaultKind
  /-- The address of the instruction that faulted or was being fetched. -/
  pc : Word
  /-- The instruction's word, none for a fetch `MemoryRange`. -/
  opcode : Option Word
  /-- For `MemoryRange`, the first offending address. -/
  addr : Option Nat
  /-- For `KeyIndex`, the register value. -/
  value : Option Byte
deriving DecidableEq, Repr

/-- What `raise <Kind>(info)` carries (00_scope R26): the kind with its information, before the record is made. -/
inductive Raise where
  | stackUnderflow
  | stackOverflow
  | unimplemented
  | memoryRange (addr : Nat)
  | keyIndex (value : Byte)
deriving DecidableEq, Repr

/-- The outcome of a step in which the core is stopped. -/
inductive Fault where
  /-- Raised by `step` alone, when the fault latch is set: the step is inert and the host is returned the latched
  record (60_exceptions R205). The state is as before. Safe: it is the spec's own `Halted` (log entry 4). -/
  | halted (r : FaultRecord)
deriving DecidableEq, Repr

/-- Why an instruction has no meaning. -/
inductive Refusal where
  /-- Raised by an arm of `exec` for an instruction the model gives no meaning; no arm raises it. Safe. -/
  | notModelled (mnemonic : String)
deriving DecidableEq, Repr

/-- Memory: the bytes that are not zero, with their addresses strictly rising (20_memory R60). An address that is not
listed reads as zero, its value after reset (10_state R47, D13). DESIGN CHOICE of form (log entry 6): safe. -/
abbrev Memory := List Host.Cell

/-- A pixel's column and row (43_display R160). -/
abbrev Pixel := Nat × Nat

/-- The framebuffer: the pixels that are on, in strictly rising order of column and then row (10_state R41). DESIGN CHOICE
of form (log entry 7): safe. -/
abbrev Framebuffer := List Pixel

/-- The spec's record, the whole state of the core: "A model's state type has exactly these fields" (10_state, its table;
R45 says what is not state). -/
structure CoreState where
  /-- Memory (10_state R42). -/
  mem : Memory
  /-- V0 to VF (R30, R31). -/
  v : Vector Byte 16
  /-- The index register (R33). -/
  i : Word
  /-- The program counter (R34). -/
  pc : Word
  /-- The call depth, 0 to 16 (R37, R38). DESIGN CHOICE of type (log entry 8): safe. -/
  sp : Fin 17
  /-- The call stack (R37). -/
  stack : Vector Word 16
  /-- The delay timer (R39). -/
  dt : Byte
  /-- The sound timer (R39). -/
  st : Byte
  /-- The keyboard mask (R40). -/
  kbd : Word
  /-- The framebuffer (R41). -/
  fb : Framebuffer
  /-- The timer engine's epoch (R43). -/
  tmrEpoch : Option Nat
  /-- The periods counted since the epoch (R43). -/
  tmrDone : Nat
  /-- The fault latch (R44). -/
  fault : Option FaultRecord
deriving DecidableEq, Repr

/-- The record with the arguments of the operations that run on it. -/
structure State extends CoreState where
  /-- The model's own: the parameters of the machine, never written (00_scope R12 to R21). DESIGN CHOICE (log entry 2):
  safe. -/
  params : Params
  /-- The model's own: how many random bytes have been drawn (00_scope R27). DESIGN CHOICE (log entry 1): safe. -/
  draws : Nat
deriving DecidableEq, Repr

/-- The record right after reset (10_state R47, 70_reset R240): every field's value is the spec's. -/
def CoreState.reset : CoreState where
  mem := []
  v := Vector.replicate 16 0
  i := 0
  pc := 0x200
  sp := 0
  stack := Vector.replicate 16 0
  dt := 0
  st := 0
  kbd := 0
  fb := []
  tmrEpoch := none
  tmrDone := 0
  fault := none

/-- The state right after reset: the spec's record, and for the model's own fields the values of log entries 1 and 3. -/
def State.reset : State where
  toCoreState := CoreState.reset
  params := Config.defaults
  draws := 0

end Sys2Proof.Machine
end

