-- ==== Sys2Proof/Machine/Ops.lean ====
section
/-! DEFINITION. The named operations over memory, registers, the call stack, the framebuffer and the fault latch, and
the frame of one instruction: pre-advance, effect, or fault with roll-back (30_encoding R91). -/

namespace Sys2Proof.Machine

/-! ## Memory (20_memory) -/

/-- The byte at an address; an unlisted address reads as its reset value 0 (10_state R47). -/
def Memory.read (m : Memory) (a : Nat) : Byte :=
  match m with
  | [] => 0
  | (b, w) :: rest => if b = a then w else Memory.read rest a

/-- A cell in front of a memory, unless the cell holds what an unlisted address reads as. -/
def Memory.cons (a : Nat) (v : Byte) (m : Memory) : Memory := if v = 0 then m else (a, v) :: m

/-- Memory with one byte written, in canonical form. -/
def Memory.write (m : Memory) (a : Nat) (v : Byte) : Memory :=
  match m with
  | [] => Memory.cons a v []
  | (b, w) :: rest =>
    if a < b then Memory.cons a v ((b, w) :: rest)
    else if a = b then Memory.cons a v rest
    else (b, w) :: Memory.write rest a v

/-- Bytes written at consecutive addresses, in increasing address order (20_memory R64). -/
def Memory.writeBytes (m : Memory) (a : Nat) : List Byte → Memory
  | [] => m
  | v :: rest => Memory.writeBytes (m.write a v) (a + 1) rest

/-- `n` bytes at consecutive addresses (00_scope R25). -/
def Memory.readBytes (m : Memory) (a : Nat) : Nat → List Byte
  | 0 => []
  | n + 1 => m.read a :: Memory.readBytes m (a + 1) n

/-- The canonical form from an address on: strictly rising, inside memory, no listed zero. -/
def Memory.wfFrom (lo : Nat) : Memory → Bool
  | [] => true
  | (a, v) :: rest => decide (lo ≤ a) && decide (a < memSize) && decide (v ≠ 0) && Memory.wfFrom (a + 1) rest

/-- The canonical form of memory: equal memories are equal lists. -/
def Memory.wf (m : Memory) : Bool := Memory.wfFrom 0 m

/-- `CheckRange(addr, n)` on its own (00_scope R25): the run is empty or lies inside memory. -/
abbrev inRange (addr n : Nat) : Prop := n = 0 ∨ addr + n ≤ memSize

/-- The first offending address of a run that leaves memory (R25). -/
def firstBad (addr : Nat) : Nat := max addr memSize

/-- A result given only after `CheckRange(addr, n)` (R25, 42_index_memory R140). -/
def checkRange (addr n : Nat) (t : State) : Except Raise State :=
  if inRange addr n then .ok t else .error (.memoryRange (firstBad addr))

/-! ## Registers (10_state) -/

/-- `V[x]` (00_scope R24). -/
def State.reg (s : State) (x : Reg) : Byte := s.v[x]
/-- `V[x] <- b`. -/
def State.setReg (s : State) (x : Reg) (b : Byte) : State := { s with v := s.v.set x b }
/-- `PC <- a`. -/
def State.setPc (s : State) (a : Word) : State := { s with pc := a }
/-- `I <- a`. -/
def State.setI (s : State) (a : Word) : State := { s with i := a }
/-- `DT <- b`. -/
def State.setDt (s : State) (b : Byte) : State := { s with dt := b }
/-- `ST <- b`. -/
def State.setSt (s : State) (b : Byte) : State := { s with st := b }
/-- The keyboard mask, written by host events only (10_state R40). -/
def State.setKbd (s : State) (k : Word) : State := { s with kbd := k }
/-- Memory replaced. -/
def State.setMem (s : State) (m : Memory) : State := { s with mem := m }
/-- The framebuffer replaced. -/
def State.setFb (s : State) (f : Framebuffer) : State := { s with fb := f }
/-- The fault latch (10_state R44). -/
def State.setFault (s : State) (f : Option FaultRecord) : State := { s with fault := f }
/-- The timer engine's hidden fields (10_state R43). -/
def State.setTimerClock (s : State) (epoch : Option Nat) (done : Nat) : State :=
  { s with tmrEpoch := epoch, tmrDone := done }
/-- One more random byte drawn (log entry 1). -/
def State.nextDraw (s : State) : State := { s with draws := s.draws + 1 }

/-- `PC <- PC + 2`: the pre-advance, and the skip on top of it (10_state R35, 40_control_flow R100). -/
def State.advance (s : State) : State := s.setPc (s.pc + 2)
/-- `PC <- PC - 2`: back to the instruction itself (44_keys_timers R184). -/
def State.retreat (s : State) : State := s.setPc (s.pc - 2)
/-- A skip of the next word if a condition holds (40_control_flow R100). -/
def State.skipIf (s : State) (c : Bool) : State := if c then s.advance else s

/-- The result and then the flag: VF is written last, so a destination VF ends as the flag (00_scope R28). -/
def State.setRegFlag (s : State) (x : Reg) (result : Byte) (flag : Bool) : State :=
  (s.setReg x result).setReg VF (if flag then 1 else 0)

/-- `V[j], V[j+1], ...` loaded from a list of bytes, in index order (42_index_memory R146). -/
def State.loadRegsFrom (s : State) (j : Nat) : List Byte → State
  | [] => s
  | b :: rest => if h : j < 16 then (s.setReg ⟨j, h⟩ b).loadRegsFrom (j + 1) rest else s

/-- The values of `V0 .. Vx`, in index order (42_index_memory R145). -/
def State.regsUpTo (s : State) (x : Reg) : List Byte := s.v.toList.take (x + 1)

/-! ## The call stack (10_state R37) -/

/-- A push and the jump that goes with it (40_control_flow R103): overflow when the stack is full. -/
def State.pushPc (s : State) (target : Word) : Except Raise State :=
  if h : s.sp.val < 16 then
    .ok { s with stack := s.stack.set s.sp.val s.pc, sp := ⟨s.sp.val + 1, Nat.succ_lt_succ h⟩, pc := target }
  else .error .stackOverflow

/-- A pop into `PC` (40_control_flow R101): underflow when the stack is empty; the slot keeps its value. -/
def State.popPc (s : State) : Except Raise State :=
  if h : 0 < s.sp.val then
    have hj : s.sp.val - 1 < 16 := by have := s.sp.isLt; omega
    .ok { s with pc := s.stack[s.sp.val - 1], sp := ⟨s.sp.val - 1, by omega⟩ }
  else .error .stackUnderflow

/-! ## The framebuffer (43_display) -/

/-- The order of the list of lit pixels: by column, then by row. -/
def pixelLt (p q : Pixel) : Bool := decide (p.1 < q.1) || (decide (p.1 = q.1) && decide (p.2 < q.2))

/-- `fb[x][y]` (10_state R41). -/
def Framebuffer.pixel (f : Framebuffer) (x y : Nat) : Bool := decide ((x, y) ∈ f)

/-- `fb[x][y] <- not fb[x][y]` (43_display R162), in canonical form. -/
def Framebuffer.toggle (f : Framebuffer) (p : Pixel) : Framebuffer :=
  match f with
  | [] => [p]
  | q :: rest =>
    if p = q then rest
    else if pixelLt p q then p :: q :: rest
    else q :: Framebuffer.toggle rest p

/-- The canonical form above a pixel: strictly rising and on the screen. -/
def Framebuffer.wfFrom (height : Nat) (prev : Option Pixel) : Framebuffer → Bool
  | [] => true
  | p :: rest =>
    (match prev with | none => true | some q => pixelLt q p) && decide (p.1 < width) && decide (p.2 < height) &&
      Framebuffer.wfFrom height (some p) rest

/-- The canonical form of a framebuffer of `width × height` pixels. -/
def Framebuffer.wf (height : Nat) (f : Framebuffer) : Bool := Framebuffer.wfFrom height none f

/-- A framebuffer being drawn on, and whether a pixel went from on to off so far. -/
abbrev Canvas := Framebuffer × Bool

/-- The pixel a sprite bit lands on: each axis wrapped on its own (43_display R163). -/
def target (height x0 y0 row col : Nat) : Pixel := ((x0 + col) % width, (y0 + row) % height)

/-- A 1 bit toggles its pixel; on to off is a collision (R162, R164). -/
def Canvas.hit (c : Canvas) (p : Pixel) : Canvas := (c.1.toggle p, c.2 || c.1.pixel p.1 p.2)

/-- One row of a sprite, from `col` on, MSB first (R162); a 0 bit touches nothing. -/
def Canvas.drawCols (height x0 y0 row : Nat) (b : Byte) (c : Canvas) : List Nat → Canvas
  | [] => c
  | col :: cols =>
    Canvas.drawCols height x0 y0 row b
      (if b.getLsbD (7 - col) then c.hit (target height x0 y0 row col) else c) cols

/-- The rows of a sprite from row `row` on, in increasing address order (R162). -/
def Canvas.drawRows (height x0 y0 : Nat) (c : Canvas) (row : Nat) : List Byte → Canvas
  | [] => c
  | b :: rest =>
    Canvas.drawRows height x0 y0 (c.drawCols height x0 y0 row b [0, 1, 2, 3, 4, 5, 6, 7]) (row + 1) rest

/-- The XOR blit of a sprite at an origin (R162): the framebuffer drawn and the collision. -/
def blit (height x0 y0 : Nat) (f : Framebuffer) (sprite : List Byte) : Canvas :=
  Canvas.drawRows height x0 y0 (f, false) 0 sprite

/-! ## Faults (60_exceptions) -/

/-- The numeric code of a fault kind (R200). -/
def FaultKind.code : FaultKind → Nat
  | .stackUnderflow => 1
  | .stackOverflow => 2
  | .unimplemented => 3
  | .memoryRange => 4
  | .keyIndex => 5

/-- The code of a record (R201). -/
def FaultRecord.code (r : FaultRecord) : Nat := r.kind.code

/-- The record of a fault raised by the instruction at `pc` with word `op`, none if no word was read (R201). -/
def Raise.record (pc : Word) (op : Option Word) : Raise → FaultRecord
  | .stackUnderflow => ⟨.stackUnderflow, pc, op, none, none⟩
  | .stackOverflow => ⟨.stackOverflow, pc, op, none, none⟩
  | .unimplemented => ⟨.unimplemented, pc, op, none, none⟩
  | .memoryRange a => ⟨.memoryRange, pc, op, some a, none⟩
  | .keyIndex v => ⟨.keyIndex, pc, op, none, some v⟩

/-- The reset operation (70_reset R240): every field of the spec's record to its reset value. The model's own fields
are kept: the parameters are fixed, and draws already made are never made again (log entry 1). -/
def State.resetOp (s : State) : State := { s with toCoreState := CoreState.reset }

/-- TAKING A FAULT, from the state before the step (60_exceptions R204 to R206): nothing changes but the latch, or,
for `Unimplemented` under `UNIMPL_POLICY = reset`, the core is reset. There is no handler and no return (R208). That the
raised fault is a next state is a DESIGN CHOICE (log entry 4): safe. -/
def State.takeFault (s : State) (r : Raise) (op : Option Word) : State :=
  if r = .unimplemented ∧ s.params.unimplPolicy = .reset then s.resetOp
  else s.setFault (some (r.record s.pc op))

/-- One instruction with word `op` at `PC` (30_encoding R91): its effect runs on the pre-advanced state, and if it
raises, the state before the instruction takes the fault (60_exceptions R204). The word of the record is `encode` of the
instruction: DEDUCED (log entry 10), safe. -/
def complete (op : Word) (body : State → Except Raise State) (s : State) : Host.Outcome State Fault Refusal :=
  match body s.advance with
  | .ok t => .next t
  | .error r => .next (s.takeFault r (some op))

/-- The fetch (30_encoding R80): the big-endian word at `PC`, or `MemoryRange` when it does not lie inside memory. -/
def fetch (s : State) : Except Raise Word :=
  if inRange s.pc.toNat 2 then .ok (wordOfBytes (s.mem.read s.pc.toNat) (s.mem.read (s.pc.toNat + 1)))
  else .error (.memoryRange (firstBad s.pc.toNat))

/-- One fetch, decode and execute cycle around the running of the instruction read (30_encoding R91). The checks run in
the order of 60_exceptions R207: latch, fetch range, dispatch, the instruction's own. With the latch set the core is
stopped (R205). -/
def cycle (run : Instr → State → Host.Outcome State Fault Refusal) (s : State) : Host.Outcome State Fault Refusal :=
  match s.fault with
  | some r => .fault (.halted r)
  | none =>
    match fetch s with
    | .error r => .next (s.takeFault r none)
    | .ok op =>
      match decode op with
      | none => .next (s.takeFault .unimplemented (some op))
      | some i => run i s

/-- Where the next fetch reads: `PC`, or the program base if no word can be fetched at `PC`. -/
def State.fetchable (s : State) : Word := if inRange s.pc.toNat 2 then s.pc else 0x200

/-- A word stored where the next step fetches it, with the latch clear so that the step runs. DESIGN CHOICE (log entry 5):
safe, no operation of the machine calls it. -/
def State.placeWord (s : State) (w : Word) : State :=
  { s with
    mem := s.mem.writeBytes s.fetchable.toNat [highByte w, lowByte w]
    pc := s.fetchable
    fault := none }

end Sys2Proof.Machine
end

