-- ==== Sys2Proof/Machine/Operands.lean ====
section
/-! DEFINITION. The operand forms (30_encoding R82, 42_index_memory R140, 44_keys_timers R180): how an instruction's
fields and the registers become values and addresses. Every field is zero-extended, none is signed. -/

namespace Sys2Proof.Machine

/-- `zext_16(nnn)` (R82). -/
def addrWord (nnn : Addr12) : Word := nnn.setWidth 16

/-- `zext_16` of a byte (R82). -/
def byteWord (b : Byte) : Word := b.setWidth 16

/-- The target of Bnnn, `V0 + nnn`, without wrap (40_control_flow R108). -/
def v0Target (s : State) (nnn : Addr12) : Nat := (s.reg 0).toNat + nnn.toNat

/-- The address of the k-th byte of an access through `I`, without wrap (42_index_memory R140, 20_memory R75). -/
def indexAddr (s : State) (k : Nat) : Nat := s.i.toNat + k

/-- `I` after Fx1E, the sum modulo `2^16` (42_index_memory R142). -/
def indexSum (s : State) (x : Reg) : Word := s.i + byteWord (s.reg x)

/-- The address of the glyph of a value, not masked to a digit (R143); `FONT_BASE` is 0. -/
def glyphAddr (b : Byte) : Word := BitVec.ofNat 16 (fontBase + b.toNat * glyphBytes)

/-- The decimal digits of a byte, hundreds first (R144). -/
def bcdDigits (b : Byte) : List Byte :=
  [BitVec.ofNat 8 (b.toNat / 100), BitVec.ofNat 8 (b.toNat / 10 % 10), BitVec.ofNat 8 (b.toNat % 10)]

/-- The bytes of a run of `n` at `I` (00_scope R25). -/
def indexRun (s : State) (n : Nat) : List Byte := s.mem.readBytes (indexAddr s 0) n

/-- Key `k` is down (10_state R40). -/
def keyBit (kbd : Word) (k : Nat) : Bool := kbd.getLsbD k

/-- `KeyIsDown(v)` (44_keys_timers R180). -/
def keyIsDown (policy : KeyRangePolicy) (kbd : Word) (v : Byte) : Except Raise Bool :=
  if v.toNat ≤ 0x0F then .ok (keyBit kbd v.toNat)
  else
    match policy with
    | .fault => .error (.keyIndex v)
    | .lowNibble => .ok (keyBit kbd (v.toNat % 16))
    | .notPressed => .ok false

/-- The key codes, in rising order. -/
def keyCodes : List Reg := [0, 1, 2, 3, 4, 5, 6, 7, 8, 9, 10, 11, 12, 13, 14, 15]

/-- The lowest-numbered key that is down, none if no key is (44_keys_timers R184). -/
def lowestKey (kbd : Word) : Option Reg := keyCodes.find? (fun k => keyBit kbd k)

/-- A key code as a register value. -/
def keyValue (k : Reg) : Byte := BitVec.ofNat 8 k

end Sys2Proof.Machine
end

