-- ==== Sys2Proof/Machine/Flags.lean ====
section
/-! DEFINITION. The flag VF of the six instructions that write it as a flag (10_state R32), each from operand values
read before anything is written (00_scope R28). The sixth, DRW's collision, is the second component of `blit`. -/

namespace Sys2Proof.Machine

/-- 8xy4: the true sum exceeds 255 (41_alu R127). -/
def carryFlag (a b : Byte) : Bool := decide (a.toNat + b.toNat > 255)

/-- 8xy5 and 8xy7: no borrow in `a - b` (R128, R130). -/
def noBorrowFlag (a b : Byte) : Bool := decide (a.toNat ≥ b.toNat)

/-- 8xy6: the bit shifted out, old bit 0 (R129). -/
def shrFlag (a : Byte) : Bool := a.getLsbD 0

/-- 8xyE: the bit shifted out, old bit 7 (R131). -/
def shlFlag (a : Byte) : Bool := a.getLsbD 7

/-- Dxyn: a pixel went from on to off (43_display R164). -/
def collisionFlag (c : Canvas) : Bool := c.2

end Sys2Proof.Machine
end

