-- ==== Sys2Proof/Machine/Alu.lean ====
section
/-! DEFINITION. Register loads and arithmetic (41_alu R120 to R132): 8-bit wraparound, operands read before anything
is written, VF written last; none of them raises. -/

namespace Sys2Proof.Machine

/-- LD Vx, kk (R121). -/
def execLdImm (x : Reg) (kk : Byte) (s : State) : Host.Outcome State Fault Refusal :=
  complete (encode (.ldImm x kk)) (fun u => .ok (u.setReg x kk)) s

/-- ADD Vx, kk (R122): no flag. -/
def execAddImm (x : Reg) (kk : Byte) (s : State) : Host.Outcome State Fault Refusal :=
  complete (encode (.addImm x kk)) (fun u => .ok (u.setReg x (u.reg x + kk))) s

/-- LD Vx, Vy (R123). -/
def execLdReg (x y : Reg) (s : State) : Host.Outcome State Fault Refusal :=
  complete (encode (.ldReg x y)) (fun u => .ok (u.setReg x (u.reg y))) s

/-- OR Vx, Vy (R124). -/
def execOrReg (x y : Reg) (s : State) : Host.Outcome State Fault Refusal :=
  complete (encode (.orReg x y)) (fun u => .ok (u.setReg x (u.reg x ||| u.reg y))) s

/-- AND Vx, Vy (R125). -/
def execAndReg (x y : Reg) (s : State) : Host.Outcome State Fault Refusal :=
  complete (encode (.andReg x y)) (fun u => .ok (u.setReg x (u.reg x &&& u.reg y))) s

/-- XOR Vx, Vy (R126). -/
def execXorReg (x y : Reg) (s : State) : Host.Outcome State Fault Refusal :=
  complete (encode (.xorReg x y)) (fun u => .ok (u.setReg x (u.reg x ^^^ u.reg y))) s

/-- ADD Vx, Vy (R127): VF is the carry. -/
def execAddReg (x y : Reg) (s : State) : Host.Outcome State Fault Refusal :=
  complete (encode (.addReg x y))
    (fun u => .ok (u.setRegFlag x (u.reg x + u.reg y) (carryFlag (u.reg x) (u.reg y)))) s

/-- SUB Vx, Vy (R128): VF is no-borrow of `Vx - Vy`. -/
def execSub (x y : Reg) (s : State) : Host.Outcome State Fault Refusal :=
  complete (encode (.sub x y))
    (fun u => .ok (u.setRegFlag x (u.reg x - u.reg y) (noBorrowFlag (u.reg x) (u.reg y)))) s

/-- SHR Vx (R129): VF is old bit 0; `y` is not used (30_encoding R89). -/
def execShr (x y : Reg) (s : State) : Host.Outcome State Fault Refusal :=
  complete (encode (.shr x y)) (fun u => .ok (u.setRegFlag x (u.reg x >>> 1) (shrFlag (u.reg x)))) s

/-- SUBN Vx, Vy (R130): VF is no-borrow of `Vy - Vx`. -/
def execSubn (x y : Reg) (s : State) : Host.Outcome State Fault Refusal :=
  complete (encode (.subn x y))
    (fun u => .ok (u.setRegFlag x (u.reg y - u.reg x) (noBorrowFlag (u.reg y) (u.reg x)))) s

/-- SHL Vx (R131): VF is old bit 7; `y` is not used (30_encoding R89). -/
def execShl (x y : Reg) (s : State) : Host.Outcome State Fault Refusal :=
  complete (encode (.shl x y)) (fun u => .ok (u.setRegFlag x (u.reg x <<< 1) (shlFlag (u.reg x)))) s

/-- A register loaded with a given draw masked by `kk`, and the draw used up (R132). -/
def loadRandom (r : Byte) (x : Reg) (kk : Byte) (u : State) : State := (u.setReg x (r &&& kk)).nextDraw

/-- RND Vx, kk with the draw as its argument (R132, 00_scope R27). -/
def execRndWith (r : Byte) (x : Reg) (kk : Byte) (s : State) : Host.Outcome State Fault Refusal :=
  complete (encode (.rnd x kk)) (fun u => .ok (loadRandom r x kk u)) s

/-- RND Vx, kk: the draw is the free value of this state (log entry 1). -/
def execRnd (x : Reg) (kk : Byte) (s : State) : Host.Outcome State Fault Refusal :=
  execRndWith (Config.randomByte s.draws) x kk s

end Sys2Proof.Machine
end

