-- ==== Sys2Proof/Machine/ControlFlow.lean ====
section
/-! DEFINITION. Control flow (40_control_flow R100 to R109). Each meaning takes the state with `PC` at the instruction
and runs its effect on the pre-advanced state (`complete`). -/

namespace Sys2Proof.Machine

/-- RET (R101). -/
def execRet (s : State) : Host.Outcome State Fault Refusal :=
  complete (encode .ret) (fun u => u.popPc) s

/-- JP nnn (R102). -/
def execJp (nnn : Addr12) (s : State) : Host.Outcome State Fault Refusal :=
  complete (encode (.jp nnn)) (fun u => .ok (u.setPc (addrWord nnn))) s

/-- CALL nnn (R103); the pushed value is the pre-advanced `PC`. -/
def execCall (nnn : Addr12) (s : State) : Host.Outcome State Fault Refusal :=
  complete (encode (.call nnn)) (fun u => u.pushPc (addrWord nnn)) s

/-- SE Vx, kk (R104). -/
def execSeImm (x : Reg) (kk : Byte) (s : State) : Host.Outcome State Fault Refusal :=
  complete (encode (.seImm x kk)) (fun u => .ok (u.skipIf (u.reg x == kk))) s

/-- SNE Vx, kk (R105). -/
def execSneImm (x : Reg) (kk : Byte) (s : State) : Host.Outcome State Fault Refusal :=
  complete (encode (.sneImm x kk)) (fun u => .ok (u.skipIf (u.reg x != kk))) s

/-- SE Vx, Vy (R106). -/
def execSeReg (x y : Reg) (s : State) : Host.Outcome State Fault Refusal :=
  complete (encode (.seReg x y)) (fun u => .ok (u.skipIf (u.reg x == u.reg y))) s

/-- SNE Vx, Vy (R107). -/
def execSneReg (x y : Reg) (s : State) : Host.Outcome State Fault Refusal :=
  complete (encode (.sneReg x y)) (fun u => .ok (u.skipIf (u.reg x != u.reg y))) s

/-- JP V0, nnn (R108): the target is checked at the jump. -/
def execJpV0 (nnn : Addr12) (s : State) : Host.Outcome State Fault Refusal :=
  complete (encode (.jpV0 nnn))
    (fun u =>
      if v0Target u nnn < memSize then .ok (u.setPc (BitVec.ofNat 16 (v0Target u nnn)))
      else .error (.memoryRange (v0Target u nnn)))
    s

end Sys2Proof.Machine
end

