-- ==== Sys2Proof/Machine/Display.lean ====
section
/-! DEFINITION. The display compositor's two instructions (43_display R160 to R167). -/

namespace Sys2Proof.Machine

/-- CLS (R161). -/
def execCls (s : State) : Host.Outcome State Fault Refusal :=
  complete (encode .cls) (fun u => .ok (u.setFb [])) s

/-- A sprite drawn at an origin (R162): the framebuffer, and VF last. -/
def drawSprite (u : State) (x0 y0 : Nat) (sprite : List Byte) : State :=
  let c := blit u.params.height x0 y0 u.fb sprite
  (u.setFb c.1).setReg VF (if collisionFlag c then 1 else 0)

/-- DRW Vx, Vy, n (R162): the origin is read before VF is written (C1). -/
def execDrw (x y : Reg) (n : Fin 16) (s : State) : Host.Outcome State Fault Refusal :=
  complete (encode (.drw x y n))
    (fun u => checkRange (indexAddr u 0) n (drawSprite u (u.reg x).toNat (u.reg y).toNat (indexRun u n))) s

end Sys2Proof.Machine
end

