-- ==== Sys2Proof/Machine/IndexMemory.lean ====
section
/-! DEFINITION. The index register and the transfers through it (42_index_memory R140 to R146). `I` is never changed by
a transfer, and a run that leaves memory raises before anything is written. -/

namespace Sys2Proof.Machine

/-- LD I, nnn (R141). -/
def execLdI (nnn : Addr12) (s : State) : Host.Outcome State Fault Refusal :=
  complete (encode (.ldI nnn)) (fun u => .ok (u.setI (addrWord nnn))) s

/-- ADD I, Vx (R142): modulo `2^16`, no flag, no range check. -/
def execAddIVx (x : Reg) (s : State) : Host.Outcome State Fault Refusal :=
  complete (encode (.addIVx x)) (fun u => .ok (u.setI (indexSum u x))) s

/-- LD F, Vx (R143). -/
def execLdFVx (x : Reg) (s : State) : Host.Outcome State Fault Refusal :=
  complete (encode (.ldFVx x)) (fun u => .ok (u.setI (glyphAddr (u.reg x)))) s

/-- Bytes stored at `I`, after the range check (R140). -/
def storeAtIndex (u : State) (bytes : List Byte) : Except Raise State :=
  checkRange (indexAddr u 0) bytes.length (u.setMem (u.mem.writeBytes (indexAddr u 0) bytes))

/-- LD B, Vx (R144). -/
def execLdBVx (x : Reg) (s : State) : Host.Outcome State Fault Refusal :=
  complete (encode (.ldBVx x)) (fun u => storeAtIndex u (bcdDigits (u.reg x))) s

/-- LD [I], Vx (R145). -/
def execLdMemVx (x : Reg) (s : State) : Host.Outcome State Fault Refusal :=
  complete (encode (.ldMemVx x)) (fun u => storeAtIndex u (u.regsUpTo x)) s

/-- LD Vx, [I] (R146). -/
def execLdVxMem (x : Reg) (s : State) : Host.Outcome State Fault Refusal :=
  complete (encode (.ldVxMem x))
    (fun u => checkRange (indexAddr u 0) (x + 1) (u.loadRegsFrom 0 (indexRun u (x + 1)))) s

end Sys2Proof.Machine
end

