-- ==== Sys2Proof/Machine/KeysTimers.lean ====
section
/-! DEFINITION. The keyboard and timer instructions (44_keys_timers R180 to R186). -/

namespace Sys2Proof.Machine

/-- A skip on the state of the key a register names: taken when the key's state is `down` (R181, R182). -/
def skipOnKey (u : State) (x : Reg) (down : Bool) : Except Raise State :=
  match keyIsDown u.params.keyRangePolicy u.kbd (u.reg x) with
  | .ok d => .ok (u.skipIf (d == down))
  | .error r => .error r

/-- SKP Vx (R181). -/
def execSkp (x : Reg) (s : State) : Host.Outcome State Fault Refusal :=
  complete (encode (.skp x)) (fun u => skipOnKey u x true) s

/-- SKNP Vx (R182). -/
def execSknp (x : Reg) (s : State) : Host.Outcome State Fault Refusal :=
  complete (encode (.sknp x)) (fun u => skipOnKey u x false) s

/-- LD Vx, DT (R183). -/
def execLdVxDt (x : Reg) (s : State) : Host.Outcome State Fault Refusal :=
  complete (encode (.ldVxDt x)) (fun u => .ok (u.setReg x u.dt)) s

/-- LD Vx, K (R184): with no key down `PC` goes back to the instruction. -/
def execLdVxK (x : Reg) (s : State) : Host.Outcome State Fault Refusal :=
  complete (encode (.ldVxK x))
    (fun u =>
      match lowestKey u.kbd with
      | none => .ok u.retreat
      | some k => .ok (u.setReg x (keyValue k))) s

/-- LD DT, Vx (R185). -/
def execLdDtVx (x : Reg) (s : State) : Host.Outcome State Fault Refusal :=
  complete (encode (.ldDtVx x)) (fun u => .ok (u.setDt (u.reg x))) s

/-- LD ST, Vx (R186). -/
def execLdStVx (x : Reg) (s : State) : Host.Outcome State Fault Refusal :=
  complete (encode (.ldStVx x)) (fun u => .ok (u.setSt (u.reg x))) s

end Sys2Proof.Machine
end

