-- ==== Sys2Proof/Machine/Step.lean ====
section
/-! DEFINITION. One step (30_encoding R91) and the placing of a word for the next fetch. The cycle itself is
`cycle` of Machine/Ops. -/

namespace Sys2Proof.Machine

/-- One step, with the draw of the state for an instruction that draws (log entry 1). -/
def step (s : State) : Host.Outcome State Fault Refusal := cycle exec s

/-- The state with a table word stored where the next step fetches it (log entry 5). -/
def State.withFetchWord (s : State) (nbits w : Nat) : State := s.placeWord (tableWord nbits w)

end Sys2Proof.Machine
end

