-- ==== Sys2Proof/Machine/Timer.lean ====
section
/-! DEFINITION. The timer countdown engine (60_exceptions R211 to R216). It runs only when the host calls it. -/

namespace Sys2Proof.Machine

/-- The whole 60 Hz periods from an epoch to a timestamp not before it (R214); 0 for a `TS_HZ` of 0, which is not legal
(log entry 16). -/
def wholePeriods (tsHz epoch now : Nat) : Nat := (now - epoch) * timerHz / tsHz

/-- A timer `k` periods later: down to 0, never wrapping (R215). -/
def decayed (b : Byte) (k : Nat) : Byte := BitVec.ofNat 8 (b.toNat - k)

/-- Both timers decremented by the same count (R215). -/
def State.decay (s : State) (k : Nat) : State := (s.setDt (decayed s.dt k)).setSt (decayed s.st k)

/-- An update under `drift_free` (R214): whole periods since the epoch, less those already counted. -/
def State.updateDriftFree (s : State) (epoch now : Nat) : State :=
  let total := wholePeriods s.params.tsHz epoch now
  (s.decay (total - s.tmrDone)).setTimerClock (some epoch) (max s.tmrDone total)

/-- An update under `anchor_now` (R214): whole periods since the last update that counted one. -/
def State.updateAnchorNow (s : State) (epoch now : Nat) : State :=
  let k := wholePeriods s.params.tsHz epoch now
  (s.decay k).setTimerClock (some (if k > 0 then now else epoch)) s.tmrDone

/-- `timer_update(now)` (R212 to R215). The first update after reset only starts the clock, and a timestamp from
before the epoch counts no time. -/
def State.timerUpdate (s : State) (now : Nat) : State :=
  match s.tmrEpoch with
  | none => s.setTimerClock (some now) 0
  | some epoch =>
    if now < epoch then s
    else
      match s.params.timerAccounting with
      | .driftFree => s.updateDriftFree epoch now
      | .anchorNow => s.updateAnchorNow epoch now

end Sys2Proof.Machine
end

