-- ==== Sys2Proof/Machine/HostInterface.lean ====
section
/-! DEFINITION. The operations through which the host drives the core (60_exceptions R218 to R225, R229; 70_reset R240,
R242). They land between steps, one at a time, in an order the host chooses (R224; log entry 5). -/

namespace Sys2Proof.Machine

/-- What the accessors let the host read (R223): the framebuffer in its RGB view, rows of columns (log entry 13). -/
structure HostView where
  pc : Word
  i : Word
  sp : Nat
  dt : Byte
  st : Byte
  v : Vector Byte 16
  stack : Vector Word 16
  mem : List Byte
  fb : List (List Rgb)
  fault : Option FaultRecord
deriving DecidableEq, Repr

/-- The host's operations with their arguments (R220): `step r` takes the draw `r` (00_scope R27). -/
inductive HostOp where
  | step (r : Byte)
  | reset
  | timerUpdate (now : Nat)
  | keyDown (k : Reg)
  | keyUp (k : Reg)
  | loadFont (bytes : Vector Byte 80)
  | loadRom (bytes : List Byte)
  | observe
deriving DecidableEq, Repr

/-- What an operation returns to the host. -/
inductive HostResult where
  /-- The operation is done; for a step, `Ok` (30_encoding R91). -/
  | ok
  /-- The step raised a fault, and this is its record (60_exceptions R205, R206). -/
  | raised (r : FaultRecord)
  /-- The latch is set and the step did nothing (R205). -/
  | halted (r : FaultRecord)
  /-- The load was refused whole (R221). -/
  | loadRefused
  /-- The instruction has no meaning in the model; no instruction answers so. -/
  | instrRefused (r : Refusal)
  /-- What the accessors read (R223). -/
  | view (h : HostView)
deriving DecidableEq, Repr

/-- `key_down(k)` (R218). -/
def State.keyDown (s : State) (k : Reg) : State := s.setKbd (s.kbd ||| (1#16 <<< k.val))

/-- `key_up(k)` (R218). -/
def State.keyUp (s : State) (k : Reg) : State := s.setKbd (s.kbd &&& ~~~(1#16 <<< k.val))

/-- `load_font(bytes)` (R222). -/
def State.loadFont (s : State) (bytes : Vector Byte 80) : State := s.setMem (s.mem.writeBytes fontBase bytes.toList)

/-- A ROM fits between the program base and the end of memory (R221). -/
abbrev romFits (bytes : List Byte) : Prop := bytes.length ≤ memSize - progBase

/-- `load_rom(bytes)` (R221): a ROM that does not fit is refused whole. -/
def State.loadRom (s : State) (bytes : List Byte) : State :=
  if romFits bytes then s.setMem (s.mem.writeBytes progBase bytes) else s

/-- The boot sequence with the machine's own font (70_reset R242). -/
def State.boot (s : State) (rom : List Byte) : State := (s.resetOp.loadFont s.params.font).loadRom rom

/-- A pixel as the host reads it (R219). -/
def State.rgb (s : State) (x y : Nat) : Rgb := if s.fb.pixel x y then s.params.onRgb else s.params.offRgb

/-- The framebuffer as the host reads it (R219): row 0 first, each row from column 0 (log entry 13). -/
def State.rgbRows (s : State) : List (List Rgb) :=
  (List.range s.params.height).map (fun y => (List.range width).map (fun x => s.rgb x y))

/-- The accessors (R223): they read, and change nothing. -/
def State.view (s : State) : HostView where
  pc := s.pc
  i := s.i
  sp := s.sp
  dt := s.dt
  st := s.st
  v := s.v
  stack := s.stack
  mem := s.mem.readBytes 0 memSize
  fb := s.rgbRows
  fault := s.fault

/-- An instruction with the draw of its step as an argument, which RND alone uses (30_encoding R91). -/
def execWith (r : Byte) (i : Instr) (s : State) : Host.Outcome State Fault Refusal :=
  match i with
  | .rnd x kk => execRndWith r x kk s
  | i => exec i s

/-- `step(r)` (30_encoding R91): a step with the draw as its argument. -/
def stepWith (r : Byte) (s : State) : Host.Outcome State Fault Refusal := cycle (execWith r) s

/-- What the instruction at `PC` returns to the host when it runs with a draw from a state whose latch is clear (R205). -/
def execReport (r : Byte) (i : Instr) (s : State) : HostResult :=
  match execWith r i s with
  | .next t => match t.fault with | none => .ok | some f => .raised f
  | .fault (.halted f) => .halted f
  | .refused f => .instrRefused f

/-- What `step(r)` returns to the host (30_encoding R91): also the record of an unimplemented instruction that reset the
core, which no latch keeps (60_exceptions R206). -/
def stepReport (r : Byte) (s : State) : HostResult :=
  match s.fault with
  | some f => .halted f
  | none =>
    match fetch s with
    | .error f => .raised (f.record s.pc none)
    | .ok op =>
      match decode op with
      | none => .raised (Raise.unimplemented.record s.pc (some op))
      | some i => execReport r i s

/-- The state after the host's `step(r)`: the next state, and the same state when the core is stopped (R205). -/
def State.afterStep (r : Byte) (s : State) : State :=
  match stepWith r s with
  | .next t => t
  | .fault _ => s
  | .refused _ => s

/-- One host operation: the state after it and what the host is returned (R220, R225). -/
def hostOp (o : HostOp) (s : State) : State × HostResult :=
  match o with
  | .step r => (s.afterStep r, stepReport r s)
  | .reset => (s.resetOp, .ok)
  | .timerUpdate now => (s.timerUpdate now, .ok)
  | .keyDown k => (s.keyDown k, .ok)
  | .keyUp k => (s.keyUp k, .ok)
  | .loadFont bytes => (s.loadFont bytes, .ok)
  | .loadRom bytes => (s.loadRom bytes, if romFits bytes then .ok else .loadRefused)
  | .observe => (s, .view s.view)

/-- Host operations one after another, each to completion (R224): the state after the last. -/
def runOps (s : State) : List HostOp → State
  | [] => s
  | o :: rest => runOps (hostOp o s).1 rest

/-- The spec's record under a machine's parameters, as the state `exec` runs on. The draw counter is not looked at where
the draw is an argument. -/
def CoreState.under (c : CoreState) (p : Params) : State := { toCoreState := c, params := p, draws := 0 }

/-- One host operation on the spec's record, with the parameters, the draw and the timestamp as its arguments (10_state
R45): the record after it and what the host is returned. -/
def coreOp (p : Params) (o : HostOp) (c : CoreState) : CoreState × HostResult :=
  ((hostOp o (c.under p)).1.toCoreState, (hostOp o (c.under p)).2)

/-- The run is parked: the word at `PC` is a jump to itself (R229 (b)). -/
def State.parked (s : State) : Bool :=
  match fetch s with
  | .error _ => false
  | .ok op => decide (op = encode (.jp (s.pc.setWidth 12)) ∧ s.pc.toNat < memSize)

/-- The run has ended (R229): a latched fault, or parked. -/
def State.ended (s : State) : Bool := s.fault.isSome || s.parked

end Sys2Proof.Machine
end

