-- ==== Sys2Proof/Safety.lean ====
section
/-! DEFINITION. The terms claims are made in: the parts of a state and which of them an operation leaves alone, and the
invariant that every step and every host operation keeps. -/

namespace Sys2Proof.Machine

/-- One observable part of the state (10_state), down to one byte of memory, one pixel and one stack slot. -/
inductive Part where
  | reg (x : Reg)
  | i
  | pc
  | sp
  | slot (j : Fin 16)
  | dt
  | st
  | kbd
  | byte (a : Nat)
  | pixel (x y : Nat)
  | tmrEpoch
  | tmrDone
  | fault
  | params
  | draws
deriving DecidableEq, Repr

/-- A part reads in `t` as it reads in `s`. -/
def Unchanged (s t : State) : Part → Prop
  | .reg x => t.reg x = s.reg x
  | .i => t.i = s.i
  | .pc => t.pc = s.pc
  | .sp => t.sp = s.sp
  | .slot j => t.stack[j] = s.stack[j]
  | .dt => t.dt = s.dt
  | .st => t.st = s.st
  | .kbd => t.kbd = s.kbd
  | .byte a => t.mem.read a = s.mem.read a
  | .pixel x y => t.fb.pixel x y = s.fb.pixel x y
  | .tmrEpoch => t.tmrEpoch = s.tmrEpoch
  | .tmrDone => t.tmrDone = s.tmrDone
  | .fault => t.fault = s.fault
  | .params => t.params = s.params
  | .draws => t.draws = s.draws

/-- The frame: from `s` to `t` every part is unchanged but those of `touched`. -/
def OnlyChanges (touched : Part → Prop) (s t : State) : Prop := ∀ p, ¬ touched p → Unchanged s t p

/-- The pixels the 1 bits of a sprite land on, in drawing order (43_display R162, R163): the sprite is the `n` bytes at
`I`, the origin `Vx`, `Vy`. A pixel stands in the list as often as a bit lands on it. -/
def spriteHits (s : State) (x y : Reg) (n : Nat) : List Pixel :=
  (List.range n).flatMap fun row =>
    (List.range 8).filterMap fun col =>
      if (s.mem.read (indexAddr s row)).getLsbD (7 - col) then
        some (((s.reg x).toNat + col) % width, ((s.reg y).toNat + row) % s.params.height)
      else none

/-- A fault kind and the word it is raised by (60_exceptions R200, R201). -/
def kindFrom (k : FaultKind) (op : Option Word) : Bool :=
  match k, op with
  | .memoryRange, none => true
  | _, none => false
  | .unimplemented, some w => (decode w).isNone
  | k, some w =>
    match k, decode w with
    | .stackUnderflow, some .ret => true
    | .stackOverflow, some (.call _) => true
    | .memoryRange, some (.jpV0 _) => true
    | .memoryRange, some (.drw _ _ _) => true
    | .memoryRange, some (.ldBVx _) => true
    | .memoryRange, some (.ldMemVx _) => true
    | .memoryRange, some (.ldVxMem _) => true
    | .keyIndex, some (.skp _) => true
    | .keyIndex, some (.sknp _) => true
    | _, _ => false

/-- The form of a fault record (R200, R201): raised by an instruction of its kind, an offending address at or above
`0x1000` for `MemoryRange` alone, a register value above `0x0F` for `KeyIndex` alone. -/
def FaultRecord.wf (r : FaultRecord) : Bool :=
  kindFrom r.kind r.opcode &&
    (match r.addr with
     | none => decide (r.kind ≠ .memoryRange)
     | some a => decide (r.kind = .memoryRange) && decide (memSize ≤ a)) &&
    (match r.value with
     | none => decide (r.kind ≠ .keyIndex)
     | some v => decide (r.kind = .keyIndex) && decide (0x0F < v.toNat))

/-- The invariant of the machine. -/
structure State.Inv (s : State) : Prop where
  /-- The parameters are legal (00_scope R12, R16, R20). -/
  params : s.params.wf = true
  /-- Memory is in canonical form, inside the address space (20_memory R60). -/
  mem : s.mem.wf = true
  /-- The framebuffer is in canonical form, every lit pixel on the screen (10_state R41). -/
  fb : s.fb.wf s.params.height = true
  /-- `PC` is at most `0x1002` and never wraps (10_state R36). -/
  pc : s.pc.toNat ≤ 0x1002
  /-- A stack entry is at most `0x1000` (10_state R36). -/
  stack : ∀ j : Fin 16, s.stack[j].toNat ≤ 0x1000
  /-- A latched record has the form of R201 and names the address the core stopped at (60_exceptions R204, R205). -/
  latch : ∀ r, s.fault = some r → r.wf = true ∧ r.pc = s.pc
  /-- No period is counted before the clock is started (10_state R43, 60_exceptions R213). -/
  clock : s.tmrEpoch = none → s.tmrDone = 0

end Sys2Proof.Machine
end

