-- ==== Sys2Proof/Certificates/Slice0/Obligations.lean ====
section
/-! DEFINITION. The statements for the provers. `OnlyChanges touched s t` is the frame: every part of the state outside
`touched` (each register, stack slot, byte of memory and pixel on its own, and the model's own `params` and `draws`)
reads in `t` as in `s`. -/

open Sys2Proof Sys2Proof.Machine

/-! ## Reset, fetch, step -/

/-- 10_state R47, 70_reset R240: after the reset operation, and in the state after reset, every field has its reset
value. -/
def Obligations.ResetZeroesEveryField : Prop :=
  ∀ t : State, (t = State.reset ∨ ∃ s, t = (hostOp .reset s).1) →
    (∀ a, t.mem.read a = 0) ∧ (∀ x, t.reg x = 0) ∧ t.i = 0 ∧ t.pc = 0x200 ∧ t.sp.val = 0 ∧
    (∀ j : Fin 16, t.stack[j] = 0) ∧ t.dt = 0 ∧ t.st = 0 ∧ t.kbd = 0 ∧ (∀ x y, t.fb.pixel x y = false) ∧
    t.tmrEpoch = none ∧ t.tmrDone = 0 ∧ t.fault = none

/-- 30_encoding R80: the fetch at `PC` reads two bytes, the first high-order, and one that would leave memory raises
`MemoryRange` and changes nothing but the latch. -/
def Obligations.FetchIsBigEndianAndChecked : Prop :=
  ∀ s : State,
    (s.pc.toNat ≤ 0xFFE → ∃ op, fetch s = .ok op ∧
      op.toNat = (s.mem.read s.pc.toNat).toNat * 256 + (s.mem.read (s.pc.toNat + 1)).toNat) ∧
    (0xFFF ≤ s.pc.toNat → s.fault = none →
      step s = .next (s.setFault (some ⟨.memoryRange, s.pc, none, some (max s.pc.toNat 0x1000), none⟩)))

/-- 30_encoding R91: with the latch clear, a step at two bytes that decode to an instruction is that instruction's
`exec`. `exec` takes the state with `PC` at the instruction and makes the pre-advance itself, so a step adds nothing
around it. -/
def Obligations.StepRunsDecodedInstruction : Prop :=
  ∀ (s : State) (i : Instr), s.fault = none → s.pc.toNat ≤ 0xFFE →
    decode (wordOfBytes (s.mem.read s.pc.toNat) (s.mem.read (s.pc.toNat + 1))) = some i → step s = exec i s

/-- 60_exceptions R206: an unimplemented word is reported in every case; then the latch is set, or the core is reset. -/
def Obligations.UnimplementedWordFollowsPolicy : Prop :=
  ∀ (s : State) (op : Word), s.fault = none → fetch s = .ok op → decode op = none →
    (∀ d, stepReport d s = .raised ⟨.unimplemented, s.pc, some op, none, none⟩) ∧
    (s.params.unimplPolicy = .halt →
      step s = .next (s.setFault (some ⟨.unimplemented, s.pc, some op, none, none⟩))) ∧
    (s.params.unimplPolicy = .reset → step s = .next (hostOp .reset s).1 ∧ (hostOp .reset s).1.fault = none)

/-- 60_exceptions R205: while the latch is set a step is inert and returns `Halted`, and only reset clears the latch. -/
def Obligations.HaltedStepIsInert : Prop :=
  ∀ (s : State) (r : FaultRecord), s.fault = some r →
    step s = .fault (.halted r) ∧ (∀ d, hostOp (.step d) s = (s, .halted r)) ∧
    (∀ o, o ≠ .reset → (hostOp o s).1.fault = some r) ∧ (hostOp .reset s).1.fault = none

/-- 60_exceptions R204: a step that raises a fault changes nothing but the latch, which takes the record returned to the
host, or resets the core (`Unimplemented` under `UNIMPL_POLICY = reset`), whatever the draw; the record names the
address of the instruction. -/
def Obligations.FaultingStepIsPrecise : Prop :=
  ∀ (d : Byte) (s : State) (r : FaultRecord), stepReport d s = .raised r →
    r.pc = s.pc ∧ stepWith d s = step s ∧
    (r.kind = .unimplemented ∧ s.params.unimplPolicy = .reset → step s = .next (hostOp .reset s).1) ∧
    (¬ (r.kind = .unimplemented ∧ s.params.unimplPolicy = .reset) → step s = .next (s.setFault (some r)))

/-- 60_exceptions R225: with the latch set or clear, every operation but `step` and `reset` has the same effect, keeps the
latch and returns the same, but for the latch that the accessors show; `reset` gives the same state and clears the latch;
with the latch set `step` alone is inert. -/
def Obligations.HostOpsIgnoreLatch : Prop :=
  ∀ (s : State) (f : Option FaultRecord),
    (∀ o, (∀ d, o ≠ .step d) → o ≠ .reset → (hostOp o (s.setFault f)).1 = (hostOp o s).1.setFault f ∧
      (o ≠ .observe → (hostOp o (s.setFault f)).2 = (hostOp o s).2)) ∧
    (hostOp .observe (s.setFault f)).2 = .view { s.view with fault := f } ∧
    hostOp .reset (s.setFault f) = hostOp .reset s ∧ (hostOp .reset s).1.fault = none ∧
    (∀ r d, f = some r → hostOp (.step d) (s.setFault f) = (s.setFault f, .halted r))

/-! ## Encoding -/

/-- 30_encoding R81, R84: decoding the word, or the bytes, of any instruction gives the instruction back, whatever
follows. Every `Instr` is well-formed by its types. -/
def Obligations.DecodeOfEncode : Prop :=
  ∀ i : Instr, decode (encode i) = some i ∧ ∀ rest, decodeBytes (encodeBytes i ++ rest) = .ok (i, rest)

/-- 30_encoding R84: a word that decodes is the encoding of what it decodes to, so no bit of a word is dropped. -/
def Obligations.EncodeOfDecode : Prop :=
  ∀ (w : Word) (i : Instr), decode w = some i → encode i = w

/-- 30_encoding R84: a word that matches a row of the opcode map decodes to that row's instruction, and a word that
matches none does not decode. -/
def Obligations.DecodeFollowsOpcodeMap : Prop :=
  ∀ w : Word,
    (∀ r ∈ opcodeMap, r.matches w = true → ∃ i, decode w = some i ∧ i.mnemonic = r.mnemonic) ∧
    ((∀ r ∈ opcodeMap, r.matches w = false) → decode w = none)

/-- No word matches two rows. An inference the spec marks as its own: "The 34 patterns are pairwise disjoint"
(30_encoding R90). -/
def Obligations.OpcodeRowsAreDisjoint : Prop :=
  ∀ (w : Word) (r r' : OpcodeRow), r ∈ opcodeMap → r' ∈ opcodeMap → r.matches w = true → r'.matches w = true → r = r'

/-- 30_encoding R84: a word of each family, written out from its pattern. -/
def Obligations.WordsDecodeAsTheTableSays : Prop :=
  decode 0b0000000011100000 = some .cls ∧ decode 0b0010001000010000 = some (.call 0x210) ∧
  decode 0b0011001101000010 = some (.seImm 3 0x42) ∧ decode 0b1000001000111110 = some (.shl 2 3) ∧
  decode 0b1100001100001111 = some (.rnd 3 0x0F) ∧ decode 0b1101000100100101 = some (.drw 1 2 5) ∧
  decode 0b1110010010011110 = some (.skp 4) ∧ decode 0b1111001001010101 = some (.ldMemVx 2) ∧
  decode 0b0101000100100001 = none ∧ decode 0b0000000100100011 = none

/-! ## Control flow -/

/-- 40_control_flow R101: RET pops `PC` off the stack and leaves the slot; on an empty stack it raises
`StackUnderflow`. -/
def Obligations.RetPopsOrUnderflows : Prop :=
  ∀ s : State,
    (∀ j : Fin 16, s.sp.val = j.val + 1 → ∃ t, exec .ret s = .next t ∧ t.pc = s.stack[j] ∧ t.sp.val = j.val ∧
      OnlyChanges (· ∈ [Part.pc, .sp]) s t) ∧
    (s.sp.val = 0 → exec .ret s = .next (s.setFault (some ⟨.stackUnderflow, s.pc, some 0x00EE, none, none⟩)))

/-- 40_control_flow R102: JP sets `PC`; a jump to its own address changes nothing. -/
def Obligations.JumpSetsPc : Prop :=
  ∀ (s : State) (nnn : Addr12), ∃ t, exec (.jp nnn) s = .next t ∧ t.pc.toNat = nnn.toNat ∧
    OnlyChanges (· ∈ [Part.pc]) s t ∧ (s.pc.toNat = nnn.toNat → t = s)

/-- 40_control_flow R103: CALL pushes the pre-advanced `PC` and jumps; on a full stack it raises `StackOverflow`. -/
def Obligations.CallPushesOrOverflows : Prop :=
  ∀ (s : State) (nnn : Addr12),
    (∀ j : Fin 16, s.sp.val = j.val → ∃ t, exec (.call nnn) s = .next t ∧ t.stack[j] = s.pc + 2 ∧
      t.sp.val = j.val + 1 ∧ t.pc.toNat = nnn.toNat ∧ OnlyChanges (· ∈ [Part.pc, .sp, .slot j]) s t) ∧
    (s.sp.val = 16 → exec (.call nnn) s =
      .next (s.setFault (some ⟨.stackOverflow, s.pc, some (encode (.call nnn)), none, none⟩)))

/-- A CALL and the matching RET, whatever the subroutine did besides to all but the stack, give back the call-site
address plus 2 and the depth before the CALL. An inference the spec marks as its own: "A CALL followed by the matching
RET restores PC to the CALL's address plus 2" (40_control_flow R109). -/
def Obligations.CallThenRetReturns : Prop :=
  ∀ (s : State) (nnn : Addr12), s.sp.val < 16 → ∃ t, exec (.call nnn) s = .next t ∧
    ∀ u : State, u.sp = t.sp → u.stack = t.stack →
      ∃ w, exec .ret u = .next w ∧ w.pc = s.pc + 2 ∧ w.sp = s.sp

/-- 40_control_flow R104 to R107: the four skips pass over the next word exactly when their condition holds, and change
only `PC`. -/
def Obligations.SkipsFollowTheirCondition : Prop :=
  ∀ (s : State) (x y : Reg) (kk : Byte),
    (∃ t, exec (.seImm x kk) s = .next t ∧ t.pc = s.pc + (if s.reg x = kk then 4 else 2) ∧
      OnlyChanges (· ∈ [Part.pc]) s t) ∧
    (∃ t, exec (.sneImm x kk) s = .next t ∧ t.pc = s.pc + (if s.reg x = kk then 2 else 4) ∧
      OnlyChanges (· ∈ [Part.pc]) s t) ∧
    (∃ t, exec (.seReg x y) s = .next t ∧ t.pc = s.pc + (if s.reg x = s.reg y then 4 else 2) ∧
      OnlyChanges (· ∈ [Part.pc]) s t) ∧
    (∃ t, exec (.sneReg x y) s = .next t ∧ t.pc = s.pc + (if s.reg x = s.reg y then 2 else 4) ∧
      OnlyChanges (· ∈ [Part.pc]) s t)

/-- 40_control_flow R108: JP V0 jumps to `V0 + nnn`, and raises `MemoryRange` for a target outside memory. -/
def Obligations.JumpV0AddsV0OrFaults : Prop :=
  ∀ (s : State) (nnn : Addr12),
    ((s.reg 0).toNat + nnn.toNat < 0x1000 → ∃ t, exec (.jpV0 nnn) s = .next t ∧
      t.pc.toNat = (s.reg 0).toNat + nnn.toNat ∧ OnlyChanges (· ∈ [Part.pc]) s t) ∧
    (0x1000 ≤ (s.reg 0).toNat + nnn.toNat → exec (.jpV0 nnn) s =
      .next (s.setFault (some
        ⟨.memoryRange, s.pc, some (encode (.jpV0 nnn)), some ((s.reg 0).toNat + nnn.toNat), none⟩)))

/-! ## Loads and arithmetic -/

/-- 41_alu R121, R123: the register loads. -/
def Obligations.RegisterLoadsCopy : Prop :=
  ∀ (s : State) (x y : Reg) (kk : Byte),
    (∃ t, exec (.ldImm x kk) s = .next t ∧ t.reg x = kk ∧ t.pc = s.pc + 2 ∧
      OnlyChanges (· ∈ [Part.pc, .reg x]) s t) ∧
    (∃ t, exec (.ldReg x y) s = .next t ∧ t.reg x = s.reg y ∧ t.pc = s.pc + 2 ∧
      OnlyChanges (· ∈ [Part.pc, .reg x]) s t)

/-- 41_alu R122: ADD with an immediate wraps at 256 and writes no flag. -/
def Obligations.AddImmediateWrapsWithoutFlag : Prop :=
  ∀ (s : State) (x : Reg) (kk : Byte), ∃ t, exec (.addImm x kk) s = .next t ∧
    (t.reg x).toNat = ((s.reg x).toNat + kk.toNat) % 256 ∧ (x ≠ VF → t.reg VF = s.reg VF) ∧ t.pc = s.pc + 2 ∧
    OnlyChanges (· ∈ [Part.pc, .reg x]) s t

/-- 41_alu R124 to R126: OR, AND and XOR bit by bit, with VF left alone. -/
def Obligations.BitwiseOpsActBitByBit : Prop :=
  ∀ (s : State) (x y : Reg),
    (∃ t, exec (.orReg x y) s = .next t ∧
      (∀ k, (t.reg x).getLsbD k = ((s.reg x).getLsbD k || (s.reg y).getLsbD k)) ∧ t.pc = s.pc + 2 ∧
      OnlyChanges (· ∈ [Part.pc, .reg x]) s t) ∧
    (∃ t, exec (.andReg x y) s = .next t ∧
      (∀ k, (t.reg x).getLsbD k = ((s.reg x).getLsbD k && (s.reg y).getLsbD k)) ∧ t.pc = s.pc + 2 ∧
      OnlyChanges (· ∈ [Part.pc, .reg x]) s t) ∧
    (∃ t, exec (.xorReg x y) s = .next t ∧
      (∀ k, (t.reg x).getLsbD k = ((s.reg x).getLsbD k != (s.reg y).getLsbD k)) ∧ t.pc = s.pc + 2 ∧
      OnlyChanges (· ∈ [Part.pc, .reg x]) s t)

/-- 41_alu R127: ADD stores the truncated sum and ends with the carry of the true sum in VF, also when VF is the
destination or an operand. -/
def Obligations.AddSetsCarry : Prop :=
  ∀ (s : State) (x y : Reg), ∃ t, exec (.addReg x y) s = .next t ∧
    (x ≠ VF → (t.reg x).toNat = ((s.reg x).toNat + (s.reg y).toNat) % 256) ∧
    t.reg VF = (if (s.reg x).toNat + (s.reg y).toNat > 255 then 1 else 0) ∧ t.pc = s.pc + 2 ∧
    OnlyChanges (· ∈ [Part.pc, .reg x, .reg VF]) s t

/-- 41_alu R128, R130: SUB and SUBN store the exact difference modulo 256 and end with no-borrow in VF. -/
def Obligations.SubtractionsSetNoBorrow : Prop :=
  ∀ (s : State) (x y : Reg),
    (∃ t, exec (.sub x y) s = .next t ∧
      (x ≠ VF → ((t.reg x).toNat : Int) = (((s.reg x).toNat : Int) - (s.reg y).toNat) % 256) ∧
      t.reg VF = (if (s.reg x).toNat ≥ (s.reg y).toNat then 1 else 0) ∧ t.pc = s.pc + 2 ∧
      OnlyChanges (· ∈ [Part.pc, .reg x, .reg VF]) s t) ∧
    (∃ t, exec (.subn x y) s = .next t ∧
      (x ≠ VF → ((t.reg x).toNat : Int) = (((s.reg y).toNat : Int) - (s.reg x).toNat) % 256) ∧
      t.reg VF = (if (s.reg y).toNat ≥ (s.reg x).toNat then 1 else 0) ∧ t.pc = s.pc + 2 ∧
      OnlyChanges (· ∈ [Part.pc, .reg x, .reg VF]) s t)

/-- 41_alu R129, R131: SHR and SHL shift `Vx` by one, end with the bit shifted out in VF, and ignore `y`. -/
def Obligations.ShiftsKeepTheBitShiftedOut : Prop :=
  ∀ (s : State) (x y : Reg),
    (∃ t, exec (.shr x y) s = .next t ∧ (x ≠ VF → (t.reg x).toNat = (s.reg x).toNat / 2) ∧
      (t.reg VF).toNat = (s.reg x).toNat % 2 ∧ t.pc = s.pc + 2 ∧
      OnlyChanges (· ∈ [Part.pc, .reg x, .reg VF]) s t) ∧
    (∃ t, exec (.shl x y) s = .next t ∧ (x ≠ VF → (t.reg x).toNat = (s.reg x).toNat * 2 % 256) ∧
      (t.reg VF).toNat = (s.reg x).toNat / 128 ∧ t.pc = s.pc + 2 ∧
      OnlyChanges (· ∈ [Part.pc, .reg x, .reg VF]) s t) ∧
    (∀ y', exec (.shr x y') s = exec (.shr x y) s ∧ exec (.shl x y') s = exec (.shl x y) s)

/-- RND loads the draw of this state masked by `kk`. The draw is the model's free value `Config.randomByte`, of which
nothing is known, and each draw is made once: the counter `draws` is the model's choice (log entry 1). -/
def Obligations.RandomByteIsMasked : Prop :=
  ∀ (s : State) (x : Reg) (kk : Byte), ∃ t, exec (.rnd x kk) s = .next t ∧
    t.reg x = Config.randomByte s.draws &&& kk ∧ (kk = 0 → t.reg x = 0) ∧ t.draws = s.draws + 1 ∧ t.pc = s.pc + 2 ∧
    OnlyChanges (· ∈ [Part.pc, .reg x, .draws]) s t

/-! ## Index and memory -/

/-- 42_index_memory R141 to R143: the three writers of `I`. -/
def Obligations.IndexWritersComputeI : Prop :=
  ∀ (s : State) (x : Reg) (nnn : Addr12),
    (∃ t, exec (.ldI nnn) s = .next t ∧ t.i.toNat = nnn.toNat ∧ t.pc = s.pc + 2 ∧
      OnlyChanges (· ∈ [Part.pc, .i]) s t) ∧
    (∃ t, exec (.addIVx x) s = .next t ∧ t.i.toNat = (s.i.toNat + (s.reg x).toNat) % 65536 ∧ t.pc = s.pc + 2 ∧
      OnlyChanges (· ∈ [Part.pc, .i]) s t) ∧
    (∃ t, exec (.ldFVx x) s = .next t ∧ t.i.toNat = (s.reg x).toNat * 5 ∧ t.pc = s.pc + 2 ∧
      OnlyChanges (· ∈ [Part.pc, .i]) s t)

/-- 42_index_memory R144: LD B stores the three decimal digits at `I`, hundreds first, or raises `MemoryRange` and
stores nothing. Memory in canonical form is an invariant (`StepKeepsInvariant`). -/
def Obligations.BcdStoresDigits : Prop :=
  ∀ (s : State) (x : Reg), s.mem.wf = true →
    (s.i.toNat + 3 ≤ 0x1000 → ∃ t, exec (.ldBVx x) s = .next t ∧
      (t.mem.read (indexAddr s 0)).toNat = (s.reg x).toNat / 100 ∧
      (t.mem.read (indexAddr s 1)).toNat = (s.reg x).toNat / 10 % 10 ∧
      (t.mem.read (indexAddr s 2)).toNat = (s.reg x).toNat % 10 ∧ t.pc = s.pc + 2 ∧
      OnlyChanges (fun p => p = .pc ∨ ∃ k, k < 3 ∧ p = .byte (indexAddr s k)) s t) ∧
    (0x1000 < s.i.toNat + 3 → exec (.ldBVx x) s =
      .next (s.setFault (some
        ⟨.memoryRange, s.pc, some (encode (.ldBVx x)), some (max s.i.toNat 0x1000), none⟩)))

/-- 42_index_memory R145: LD [I], Vx stores each of V0 to Vx in its own byte from `I` on and keeps `I`, or raises
`MemoryRange` and stores nothing. -/
def Obligations.RegisterStoreIsPerRegister : Prop :=
  ∀ (s : State) (x : Reg), s.mem.wf = true →
    (s.i.toNat + x.val + 1 ≤ 0x1000 → ∃ t, exec (.ldMemVx x) s = .next t ∧
      (∀ k : Reg, k ≤ x → t.mem.read (indexAddr s k) = s.reg k) ∧ t.i = s.i ∧ t.pc = s.pc + 2 ∧
      OnlyChanges (fun p => p = .pc ∨ ∃ k, k ≤ x.val ∧ p = .byte (indexAddr s k)) s t) ∧
    (0x1000 < s.i.toNat + x.val + 1 → exec (.ldMemVx x) s =
      .next (s.setFault (some
        ⟨.memoryRange, s.pc, some (encode (.ldMemVx x)), some (max s.i.toNat 0x1000), none⟩)))

/-- 42_index_memory R146: LD Vx, [I] loads V0 to Vx from the bytes at `I` and keeps `I`, the higher registers and
memory, or raises `MemoryRange` and loads nothing. -/
def Obligations.RegisterLoadIsPerRegister : Prop :=
  ∀ (s : State) (x : Reg),
    (s.i.toNat + x.val + 1 ≤ 0x1000 → ∃ t, exec (.ldVxMem x) s = .next t ∧
      (∀ k : Reg, k ≤ x → t.reg k = s.mem.read (indexAddr s k)) ∧ t.i = s.i ∧ t.pc = s.pc + 2 ∧
      OnlyChanges (fun p => p = .pc ∨ ∃ k : Reg, k ≤ x ∧ p = .reg k) s t) ∧
    (0x1000 < s.i.toNat + x.val + 1 → exec (.ldVxMem x) s =
      .next (s.setFault (some
        ⟨.memoryRange, s.pc, some (encode (.ldVxMem x)), some (max s.i.toNat 0x1000), none⟩)))

/-- A fetch sees the bytes a register store wrote, with no fence between. An inference the spec marks as its own:
"Instruction fetch is coherent with stores" (20_memory R73). -/
def Obligations.FetchSeesStoredBytes : Prop :=
  ∀ (s : State) (x k : Reg), s.mem.wf = true → s.i.toNat + x.val + 1 ≤ 0x1000 → k < x →
    ∃ t, exec (.ldMemVx x) s = .next t ∧ ∀ u : State, u.mem = t.mem → u.pc.toNat = indexAddr s k →
      ∃ op, fetch u = .ok op ∧ op.toNat = (s.reg k).toNat * 256 + (s.reg (k + 1)).toNat

/-! ## Display -/

/-- 43_display R161: CLS turns every pixel off, the host reads `OFF_RGB` everywhere, and nothing else changes. -/
def Obligations.ClearTurnsEveryPixelOff : Prop :=
  ∀ s : State, ∃ t, exec .cls s = .next t ∧ (∀ px py, t.fb.pixel px py = false ∧ t.rgb px py = s.params.offRgb) ∧
    t.pc = s.pc + 2 ∧ OnlyChanges (fun p => p = .pc ∨ ∃ px py, p = .pixel px py) s t

/-- 43_display R162 to R164: DRW toggles a pixel once for each 1 bit that lands on it, wrapped on each axis; VF is 1
exactly when some toggle went from on to off (the pixel was on, or two bits land on it); a sprite that leaves memory
raises `MemoryRange` and draws nothing. Canonical form and a positive height are invariant (`StepKeepsInvariant`). -/
def Obligations.DrawTogglesEachHit : Prop :=
  ∀ (s : State) (x y : Reg) (n : Fin 16), s.fb.wf s.params.height = true → 1 ≤ s.params.height →
    (n.val = 0 ∨ s.i.toNat + n.val ≤ 0x1000 → ∃ t, exec (.drw x y n) s = .next t ∧
      (∀ px py, t.fb.pixel px py = (s.fb.pixel px py != ((spriteHits s x y n).count (px, py) % 2 == 1))) ∧
      (t.reg VF = 1 ∨ t.reg VF = 0) ∧
      (t.reg VF = 1 ↔ ∃ p ∈ spriteHits s x y n, s.fb.pixel p.1 p.2 = true ∨ 2 ≤ (spriteHits s x y n).count p) ∧
      t.pc = s.pc + 2 ∧
      OnlyChanges (fun p => p ∈ [Part.pc, .reg VF] ∨ ∃ q ∈ spriteHits s x y n, p = .pixel q.1 q.2) s t) ∧
    (n.val ≠ 0 ∧ 0x1000 < s.i.toNat + n.val → exec (.drw x y n) s =
      .next (s.setFault (some
        ⟨.memoryRange, s.pc, some (encode (.drw x y n)), some (max s.i.toNat 0x1000), none⟩)))

/-- `Dxy0` draws nothing, checks nothing and sets VF to 0, whatever `I` is. An inference the spec marks as its own: "`n = 0`
draws nothing" (43_display R165). -/
def Obligations.DrawOfNoRowsClearsVF : Prop :=
  ∀ (s : State) (x y : Reg), ∃ t, exec (.drw x y 0) s = .next t ∧ t.reg VF = 0 ∧ t.fb = s.fb ∧ t.pc = s.pc + 2 ∧
    OnlyChanges (· ∈ [Part.pc, .reg VF]) s t

/-- Drawing a sprite twice, with `I`, the sprite's bytes, the origin and the screen unchanged between
and no self-overlap, gives back the framebuffer; the second VF is 1 exactly when a pixel under a 1 bit was off before
the first draw. An inference the spec marks as its own: "drawing a sprite twice restores the framebuffer to its state
before the first draw" (43_display R167). -/
def Obligations.DrawTwiceRestores : Prop :=
  ∀ (s : State) (x y : Reg) (n : Fin 16), s.fb.wf s.params.height = true → n.val ≤ s.params.height →
    1 ≤ s.params.height → (n.val = 0 ∨ s.i.toNat + n.val ≤ 0x1000) → ∃ t, exec (.drw x y n) s = .next t ∧
      ∀ u : State, u.fb = t.fb → u.mem = s.mem → u.i = s.i → u.reg x = s.reg x → u.reg y = s.reg y →
        u.params = s.params → ∃ w, exec (.drw x y n) u = .next w ∧ w.fb = s.fb ∧
          (w.reg VF = 1 ↔ ∃ p ∈ spriteHits s x y n, s.fb.pixel p.1 p.2 = false)

/-- The host reads `WIDTH × HEIGHT` triplets, `ON_RGB` for a pixel that is on and `OFF_RGB` for one that is off, and with
legal parameters the two differ (60_exceptions, section 3). That the view is a list of rows of columns is the model's
choice (log entry 13): the spec gives no layout. -/
def Obligations.HostReadsTwoColours : Prop :=
  ∀ s : State, s.params.wf = true → s.params.onRgb ≠ s.params.offRgb ∧
    s.rgbRows.length = s.params.height ∧ (∀ row ∈ s.rgbRows, row.length = 64) ∧
    ∀ px py, px < 64 → py < s.params.height →
      ((s.rgbRows[py]?).bind (fun row => row[px]?)) =
        some (if s.fb.pixel px py then s.params.onRgb else s.params.offRgb)

/-! ## Keys and timers -/

/-- 44_keys_timers R180 to R182: SKP and SKNP skip on the state `d` of the key `Vx` names; above `0x0F` the
`KEY_RANGE_POLICY` decides, and under `fault` both raise `KeyIndex`. -/
def Obligations.KeySkipsFollowTheMask : Prop :=
  ∀ (s : State) (x : Reg),
    (∀ d : Bool,
      ((s.reg x).toNat ≤ 0x0F ∧ d = s.kbd.getLsbD (s.reg x).toNat) ∨
        (0x0F < (s.reg x).toNat ∧ s.params.keyRangePolicy = .lowNibble ∧ d = s.kbd.getLsbD ((s.reg x).toNat % 16)) ∨
        (0x0F < (s.reg x).toNat ∧ s.params.keyRangePolicy = .notPressed ∧ d = false) →
      (∃ t, exec (.skp x) s = .next t ∧ t.pc = s.pc + (if d then 4 else 2) ∧ OnlyChanges (· ∈ [Part.pc]) s t) ∧
      (∃ t, exec (.sknp x) s = .next t ∧ t.pc = s.pc + (if d then 2 else 4) ∧ OnlyChanges (· ∈ [Part.pc]) s t)) ∧
    (0x0F < (s.reg x).toNat ∧ s.params.keyRangePolicy = .fault →
      exec (.skp x) s = .next (s.setFault (some ⟨.keyIndex, s.pc, some (encode (.skp x)), none, some (s.reg x)⟩)) ∧
      exec (.sknp x) s = .next (s.setFault (some ⟨.keyIndex, s.pc, some (encode (.sknp x)), none, some (s.reg x)⟩)))

/-- 44_keys_timers R184: with no key down LD Vx, K changes nothing at all; otherwise `Vx` takes the lowest key that is
down. -/
def Obligations.KeyWaitTakesLowestKey : Prop :=
  ∀ (s : State) (x : Reg),
    (s.kbd = 0 → exec (.ldVxK x) s = .next s) ∧
    (∀ k : Reg, s.kbd.getLsbD k = true → (∀ j, j < k.val → s.kbd.getLsbD j = false) →
      ∃ t, exec (.ldVxK x) s = .next t ∧ (t.reg x).toNat = k.val ∧ t.pc = s.pc + 2 ∧
        OnlyChanges (· ∈ [Part.pc, .reg x]) s t)

/-- 44_keys_timers R183, R185, R186: the transfers between a register and the timers. -/
def Obligations.TimerTransfersCopy : Prop :=
  ∀ (s : State) (x : Reg),
    (∃ t, exec (.ldVxDt x) s = .next t ∧ t.reg x = s.dt ∧ t.pc = s.pc + 2 ∧
      OnlyChanges (· ∈ [Part.pc, .reg x]) s t) ∧
    (∃ t, exec (.ldDtVx x) s = .next t ∧ t.dt = s.reg x ∧ t.pc = s.pc + 2 ∧ OnlyChanges (· ∈ [Part.pc, .dt]) s t) ∧
    (∃ t, exec (.ldStVx x) s = .next t ∧ t.st = s.reg x ∧ t.pc = s.pc + 2 ∧ OnlyChanges (· ∈ [Part.pc, .st]) s t)

/-- 60_exceptions R213: the first update after reset only starts the clock. -/
def Obligations.FirstTimerUpdateStartsClock : Prop :=
  ∀ (s : State) (now : Nat), s.tmrEpoch = none →
    (hostOp (.timerUpdate now) s).1 = s.setTimerClock (some now) 0

/-- 60_exceptions R214, R215: a later update takes the periods counted off both timers, saturating at 0, by the
accounting of the machine, and changes nothing but the timers and the timer clock. -/
def Obligations.TimerUpdateCountsPeriods : Prop :=
  ∀ (s : State) (epoch now : Nat), s.tmrEpoch = some epoch → ∃ t k, (hostOp (.timerUpdate now) s).1 = t ∧
    t.dt.toNat = s.dt.toNat - k ∧ t.st.toNat = s.st.toNat - k ∧
    OnlyChanges (· ∈ [Part.dt, .st, .tmrEpoch, .tmrDone]) s t ∧
    (now < epoch → k = 0 ∧ t.tmrEpoch = some epoch ∧ t.tmrDone = s.tmrDone) ∧
    (epoch ≤ now ∧ s.params.timerAccounting = .driftFree →
      k = (now - epoch) * 60 / s.params.tsHz - s.tmrDone ∧ t.tmrEpoch = some epoch ∧
      t.tmrDone = max s.tmrDone ((now - epoch) * 60 / s.params.tsHz)) ∧
    (epoch ≤ now ∧ s.params.timerAccounting = .anchorNow →
      k = (now - epoch) * 60 / s.params.tsHz ∧ t.tmrEpoch = some (if k > 0 then now else epoch) ∧
      t.tmrDone = s.tmrDone)

/-- 60_exceptions R214: under `drift_free`, over any updates however spaced, the timers have lost exactly the whole
periods from the epoch to the latest timestamp. -/
def Obligations.DriftFreeCountsWholePeriods : Prop :=
  ∀ (s : State) (epoch now : Nat) (earlier : List Nat), s.tmrEpoch = some epoch → s.tmrDone = 0 →
    s.params.timerAccounting = .driftFree → (∀ u ∈ earlier, u ≤ now) →
    (runOps s ((earlier ++ [now]).map HostOp.timerUpdate)).dt.toNat =
      s.dt.toNat - (now - epoch) * 60 / s.params.tsHz ∧
    (runOps s ((earlier ++ [now]).map HostOp.timerUpdate)).st.toNat =
      s.st.toNat - (now - epoch) * 60 / s.params.tsHz

/-! ## What only some instructions do -/

/-- 10_state R32: an instruction that changes VF writes it as a flag or has it among its destination registers. -/
def Obligations.WhoWritesVF : Prop :=
  ∀ (i : Instr) (s t : State), exec i s = .next t → t.reg VF ≠ s.reg VF →
    (∃ x y, i = .addReg x y ∨ i = .sub x y ∨ i = .shr x y ∨ i = .subn x y ∨ i = .shl x y) ∨
    (∃ x y n, i = .drw x y n) ∨
    (∃ kk, i = .ldImm VF kk ∨ i = .addImm VF kk ∨ i = .rnd VF kk) ∨
    (∃ y, i = .ldReg VF y ∨ i = .orReg VF y ∨ i = .andReg VF y ∨ i = .xorReg VF y) ∨
    i = .ldVxDt VF ∨ i = .ldVxK VF ∨ i = .ldVxMem VF

/-- 10_state R33: only Annn, Fx1E and Fx29 write `I`. -/
def Obligations.WhoWritesI : Prop :=
  ∀ (i : Instr) (s t : State), exec i s = .next t → t.i ≠ s.i →
    (∃ nnn, i = .ldI nnn) ∨ ∃ x, i = .addIVx x ∨ i = .ldFVx x

/-- 10_state R37: only CALL and RET touch the stack pointer, and only CALL a slot, the one at the stack pointer. -/
def Obligations.WhoTouchesTheStack : Prop :=
  ∀ (i : Instr) (s t : State), exec i s = .next t →
    (t.sp ≠ s.sp → i = .ret ∨ ∃ nnn, i = .call nnn) ∧
    (∀ j : Fin 16, t.stack[j] ≠ s.stack[j] → s.sp.val = j.val ∧ ∃ nnn, i = .call nnn)

/-- 20_memory R61, R67: only Fx33 and Fx55 write memory, inside memory, at the bytes from `I` on. -/
def Obligations.WhoWritesMemory : Prop :=
  ∀ (i : Instr) (s t : State) (a : Nat), exec i s = .next t → t.mem.read a ≠ s.mem.read a →
    a < 0x1000 ∧ s.i.toNat ≤ a ∧
    ∃ x, (i = .ldBVx x ∧ a < s.i.toNat + 3) ∨ (i = .ldMemVx x ∧ a < s.i.toNat + x.val + 1)

/-- 10_state R41: only CLS and DRW write the framebuffer. -/
def Obligations.WhoWritesPixels : Prop :=
  ∀ (i : Instr) (s t : State), exec i s = .next t → t.fb ≠ s.fb → i = .cls ∨ ∃ x y n, i = .drw x y n

/-- 10_state R40, 30_encoding R92: no instruction writes the keyboard mask or the timer clock, only Fx15 writes DT, only
Fx18 writes ST, and none changes the machine's parameters. -/
def Obligations.InstructionsLeaveTimersAndKeys : Prop :=
  ∀ (i : Instr) (s t : State), exec i s = .next t →
    t.kbd = s.kbd ∧ t.tmrEpoch = s.tmrEpoch ∧ t.tmrDone = s.tmrDone ∧ t.params = s.params ∧
    (t.dt ≠ s.dt → ∃ x, i = .ldDtVx x) ∧ (t.st ≠ s.st → ∃ x, i = .ldStVx x)

/-- 60_exceptions R200: which instruction can raise which fault; every other never faults. -/
def Obligations.WhoRaisesWhat : Prop :=
  ∀ (d : Byte) (i : Instr) (s : State) (r : FaultRecord), s.fault = none → execReport d i s = .raised r →
    (r.kind = .stackUnderflow ∧ i = .ret) ∨ (r.kind = .stackOverflow ∧ ∃ nnn, i = .call nnn) ∨
    (r.kind = .memoryRange ∧ ((∃ nnn, i = .jpV0 nnn) ∨ (∃ x y n, i = .drw x y n) ∨
      ∃ x, i = .ldBVx x ∨ i = .ldMemVx x ∨ i = .ldVxMem x)) ∨
    (r.kind = .keyIndex ∧ ∃ x, i = .skp x ∨ i = .sknp x)

/-! ## The host -/

/-- 60_exceptions R218: a key event sets or clears the one bit of its key and changes nothing else, and every other
operation of the host but `reset` keeps the mask, a step unless it resets the core. -/
def Obligations.KeyEventsChangeOneBit : Prop :=
  ∀ (s : State) (k : Reg),
    (∀ j, j < 16 → (hostOp (.keyDown k) s).1.kbd.getLsbD j = (if j = k.val then true else s.kbd.getLsbD j) ∧
      (hostOp (.keyUp k) s).1.kbd.getLsbD j = (if j = k.val then false else s.kbd.getLsbD j)) ∧
    OnlyChanges (· ∈ [Part.kbd]) s (hostOp (.keyDown k) s).1 ∧
    OnlyChanges (· ∈ [Part.kbd]) s (hostOp (.keyUp k) s).1 ∧
    (∀ o, o ≠ .reset → (∀ j, o ≠ .keyDown j ∧ o ≠ .keyUp j) → (hostOp o s).1.kbd = s.kbd ∨
      ((∃ d, o = .step d) ∧ (hostOp o s).1 = (hostOp .reset s).1)) ∧
    (∀ t, step s = .next t → t.kbd = s.kbd ∨ t = (hostOp .reset s).1)

/-- 60_exceptions R221: a ROM of at most 3584 bytes is written at `0x200`, and a longer one is refused whole. -/
def Obligations.RomIsLoadedOrRefusedWhole : Prop :=
  ∀ (s : State) (rom : List Byte), s.mem.wf = true →
    (rom.length ≤ 3584 → (hostOp (.loadRom rom) s).2 = .ok ∧
      (∀ k (h : k < rom.length), (hostOp (.loadRom rom) s).1.mem.read (0x200 + k) = rom[k]) ∧
      OnlyChanges (fun p => ∃ k, k < rom.length ∧ p = .byte (0x200 + k)) s (hostOp (.loadRom rom) s).1) ∧
    (3584 < rom.length → hostOp (.loadRom rom) s = (s, .loadRefused))

/-- 60_exceptions R222: the font's 80 bytes are written at `0x000`. -/
def Obligations.FontIsLoadedAtZero : Prop :=
  ∀ (s : State) (font : Vector Byte 80), s.mem.wf = true →
    (∀ k : Fin 80, (hostOp (.loadFont font) s).1.mem.read k = font[k]) ∧
    OnlyChanges (fun p => ∃ k, k < 80 ∧ p = .byte k) s (hostOp (.loadFont font) s).1

/-- After the boot sequence `PC` is at the program and the two loads may be exchanged. An inference the spec marks as its
own: "their order does not matter" (70_reset R242). -/
def Obligations.BootLoadsCommute : Prop :=
  ∀ (s : State) (rom : List Byte), rom.length ≤ 3584 →
    s.boot rom = runOps s [.reset, .loadFont s.params.font, .loadRom rom] ∧
    s.boot rom = runOps s [.reset, .loadRom rom, .loadFont s.params.font] ∧ (s.boot rom).pc = 0x200

/-- 60_exceptions R229, 40_control_flow R102: a parked core executes its jump at every step and stays as it is. -/
def Obligations.ParkedCoreStaysParked : Prop :=
  ∀ s : State, s.parked = true → s.fault = none → step s = .next s

/-! ## The invariant -/

/-- The state after reset meets the invariant. Its parameters are the model's choice (log entry 3); the reset operation
keeps those of the machine. -/
def Obligations.ResetMeetsInvariant : Prop :=
  State.reset.Inv ∧ ∀ s : State, s.params.wf = true → (hostOp .reset s).1.Inv

/-- Every step keeps the invariant: canonical memory and framebuffer (the model's form, log entries 6 and 7), `PC` at most
`0x1002` and stack entries at most `0x1000` (an inference the spec marks as its own, 10_state R36), a latched record of
the form of 60_exceptions R201 that names `PC`. -/
def Obligations.StepKeepsInvariant : Prop :=
  ∀ s t : State, s.Inv → step s = .next t → t.Inv

/-- Every host operation keeps the invariant, and so does every sequence of them, in every order (60_exceptions R224). -/
def Obligations.HostRunsKeepInvariant : Prop :=
  ∀ (ops : List HostOp) (s : State), s.Inv → (runOps s ops).Inv

/-- In every run of the core from reset under any host, `PC` is at most `0x1002`, so that neither the pre-advance nor a
skip ever wraps. An inference the spec marks as its own: "`PC` never wraps around in any execution" (10_state R36). -/
def Obligations.PcNeverWraps : Prop :=
  ∀ (ops : List HostOp) (s : State), s.params.wf = true →
    (runOps s (.reset :: ops)).pc.toNat ≤ 0x1002 ∧
    ((runOps s (.reset :: ops)).pc + 4).toNat = (runOps s (.reset :: ops)).pc.toNat + 4

/-! ## The arguments of the operations -/

/-- 41_alu R132: with the draw `r`, for every `r`, RND loads `r` masked by `kk`. -/
def Obligations.GivenDrawIsMasked : Prop :=
  ∀ (r : Byte) (s : State) (x : Reg) (kk : Byte), ∃ t, execWith r (.rnd x kk) s = .next t ∧
    t.reg x = r &&& kk ∧ (kk = 0 → t.reg x = 0) ∧ (kk = 0xFF → t.reg x = r) ∧ t.pc = s.pc + 2 ∧
    OnlyChanges (· ∈ [Part.pc, .reg x, .draws]) s t

/-- `step` is `step(r)` with the free value as its draw (the model's choice, log entry 1), and with no RND to run the draw
makes no difference (30_encoding R91: "the draw `r` ... which only `Cxkk` uses"). -/
def Obligations.OnlyRndUsesTheDraw : Prop :=
  ∀ s : State, step s = stepWith (Config.randomByte s.draws) s ∧
    ∀ r, (∀ op x kk, fetch s = .ok op → decode op ≠ some (.rnd x kk)) → stepWith r s = step s

/-- What an operation makes of the spec's record, and what it returns, depend on that record and on the operation's
arguments alone: the parameters, the draw, the timestamp (10_state R45). That the state carries the parameters, which no
operation changes, and a draw counter is the model's choice (log entries 1 and 2). -/
def Obligations.OperationsDependOnTheirArguments : Prop :=
  ∀ (o : HostOp) (s : State),
    coreOp s.params o s.toCoreState = ((hostOp o s).1.toCoreState, (hostOp o s).2) ∧
    (hostOp o s).1.params = s.params
end

