-- ==== Sys2Proof/Laws/Encoding.lean ====
section
/-! SUPPORT. The fields of a word: what the decoder's fields read in an encoded word, and that the fields of a word
make it up. -/

namespace Sys2Proof

@[simp] theorem regOfNibble_nibbleOfReg (x : Reg) : regOfNibble (nibbleOfReg x) = x := rfl

@[simp] theorem nibbleOfReg_regOfNibble (b : Nibble) : nibbleOfReg (regOfNibble b) = b := rfl

/-! ### Words of four nibbles -/

/-- A bit of a word of four nibbles. -/
theorem getLsbD_ofNibbles (a b c d : Nibble) (i : Nat) :
    (ofNibbles a b c d).getLsbD i =
      if i < 4 then d.getLsbD i else if i < 8 then c.getLsbD (i - 4)
      else if i < 12 then b.getLsbD (i - 8) else a.getLsbD (i - 12) := by
  simp only [ofNibbles, BitVec.getLsbD_append]
  grind

@[simp] theorem nib0_ofNibbles (a b c d : Nibble) : nib0 (ofNibbles a b c d) = a := by
  apply BitVec.eq_of_getLsbD_eq
  intro i h
  simp only [nib0, BitVec.getLsbD_extractLsb', getLsbD_ofNibbles]
  grind

@[simp] theorem nib1_ofNibbles (a b c d : Nibble) : nib1 (ofNibbles a b c d) = b := by
  apply BitVec.eq_of_getLsbD_eq
  intro i h
  simp only [nib1, BitVec.getLsbD_extractLsb', getLsbD_ofNibbles]
  grind

@[simp] theorem nib2_ofNibbles (a b c d : Nibble) : nib2 (ofNibbles a b c d) = c := by
  apply BitVec.eq_of_getLsbD_eq
  intro i h
  simp only [nib2, BitVec.getLsbD_extractLsb', getLsbD_ofNibbles]
  grind

@[simp] theorem nib3_ofNibbles (a b c d : Nibble) : nib3 (ofNibbles a b c d) = d := by
  apply BitVec.eq_of_getLsbD_eq
  intro i h
  simp only [nib3, BitVec.getLsbD_extractLsb', getLsbD_ofNibbles]
  grind

/-- A word is made up of its four nibbles (30_encoding R81). -/
theorem ofNibbles_nibs (w : Word) : ofNibbles (nib0 w) (nib1 w) (nib2 w) (nib3 w) = w := by
  apply BitVec.eq_of_getLsbD_eq
  intro i h
  simp only [getLsbD_ofNibbles, nib0, nib1, nib2, nib3, BitVec.getLsbD_extractLsb']
  grind

/-! ### The three shapes of an encoded word -/

/-- A bit of a word of shape `gnnn`. -/
theorem getLsbD_encAddr (g : Nibble) (a : Addr12) (i : Nat) :
    (encAddr g a).getLsbD i = if i < 12 then a.getLsbD i else g.getLsbD (i - 12) := by
  simp only [encAddr, BitVec.getLsbD_append]

/-- A bit of a word of shape `gxkk`. -/
theorem getLsbD_encByte (g : Nibble) (x : Reg) (kk : Byte) (i : Nat) :
    (encByte g x kk).getLsbD i =
      if i < 8 then kk.getLsbD i else if i < 12 then (nibbleOfReg x).getLsbD (i - 8) else g.getLsbD (i - 12) := by
  simp only [encByte, BitVec.getLsbD_append]
  grind

@[simp] theorem nib0_encAddr (g : Nibble) (a : Addr12) : nib0 (encAddr g a) = g := by
  apply BitVec.eq_of_getLsbD_eq
  intro i h
  simp only [nib0, BitVec.getLsbD_extractLsb', getLsbD_encAddr]
  grind

@[simp] theorem fieldNnn_encAddr (g : Nibble) (a : Addr12) : fieldNnn (encAddr g a) = a := by
  apply BitVec.eq_of_getLsbD_eq
  intro i h
  simp only [fieldNnn, BitVec.getLsbD_extractLsb', getLsbD_encAddr]
  grind

@[simp] theorem nib0_encByte (g : Nibble) (x : Reg) (kk : Byte) : nib0 (encByte g x kk) = g := by
  apply BitVec.eq_of_getLsbD_eq
  intro i h
  simp only [nib0, BitVec.getLsbD_extractLsb', getLsbD_encByte]
  grind

@[simp] theorem fieldX_encByte (g : Nibble) (x : Reg) (kk : Byte) : fieldX (encByte g x kk) = x := by
  rw [fieldX, show nib1 (encByte g x kk) = nibbleOfReg x from ?_, regOfNibble_nibbleOfReg]
  apply BitVec.eq_of_getLsbD_eq
  intro i h
  simp only [nib1, BitVec.getLsbD_extractLsb', getLsbD_encByte]
  grind

@[simp] theorem fieldKk_encByte (g : Nibble) (x : Reg) (kk : Byte) : fieldKk (encByte g x kk) = kk := by
  apply BitVec.eq_of_getLsbD_eq
  intro i h
  simp only [fieldKk, BitVec.getLsbD_extractLsb', getLsbD_encByte]
  grind

@[simp] theorem nib0_encRegs (g : Nibble) (x y : Reg) (n : Nibble) : nib0 (encRegs g x y n) = g := by simp [encRegs]
@[simp] theorem nib3_encRegs (g : Nibble) (x y : Reg) (n : Nibble) : nib3 (encRegs g x y n) = n := by simp [encRegs]
@[simp] theorem fieldX_encRegs (g : Nibble) (x y : Reg) (n : Nibble) : fieldX (encRegs g x y n) = x := by
  simp [encRegs, fieldX]
@[simp] theorem fieldY_encRegs (g : Nibble) (x y : Reg) (n : Nibble) : fieldY (encRegs g x y n) = y := by
  simp [encRegs, fieldY]
@[simp] theorem fieldN_encRegs (g : Nibble) (x y : Reg) (n : Nibble) : fieldN (encRegs g x y n) = regOfNibble n := by
  simp [encRegs, fieldN]

/-! ### A word is made up of its fields -/

/-- A word is its group and its 12-bit address. -/
theorem encAddr_fields (w : Word) : encAddr (nib0 w) (fieldNnn w) = w := by
  apply BitVec.eq_of_getLsbD_eq
  intro i h
  simp only [getLsbD_encAddr, nib0, fieldNnn, BitVec.getLsbD_extractLsb']
  grind

/-- A word is its group, a register index and a byte. -/
theorem encByte_fields (w : Word) : encByte (nib0 w) (fieldX w) (fieldKk w) = w := by
  apply BitVec.eq_of_getLsbD_eq
  intro i h
  simp only [getLsbD_encByte, nib0, fieldX, fieldKk, nibbleOfReg_regOfNibble, nib1, BitVec.getLsbD_extractLsb']
  grind

/-- A word is its group, two register indices and a nibble. -/
theorem encRegs_fields (w : Word) : encRegs (nib0 w) (fieldX w) (fieldY w) (nib3 w) = w := by
  simp only [encRegs, fieldX, fieldY, nibbleOfReg_regOfNibble, ofNibbles_nibs]

/-! ### Bytes of a word -/

/-- A word is its two bytes, the first high-order (20_memory R62). -/
@[simp] theorem wordOfBytes_bytes (w : Word) : wordOfBytes (highByte w) (lowByte w) = w := by
  apply BitVec.eq_of_getLsbD_eq
  intro i h
  simp only [wordOfBytes, highByte, lowByte, BitVec.getLsbD_append, BitVec.getLsbD_extractLsb']
  grind

/-- The value of a word of two bytes (20_memory R62). -/
theorem wordOfBytes_toNat (b0 b1 : Byte) : (wordOfBytes b0 b1).toNat = b0.toNat * 256 + b1.toNat := by
  rw [wordOfBytes, BitVec.toNat_append, ← Nat.shiftLeft_add_eq_or_of_lt b1.isLt, Nat.shiftLeft_eq]

end Sys2Proof
end

