-- ==== Sys2Proof/Laws/State.lean ====
section
/-! SUPPORT. One lemma per field per update of the state, each true by definition, and what a register reads after an
update. -/

namespace Sys2Proof.Machine

variable (s : State)

/-! ### setReg -/

@[simp] theorem State.setReg_mem (x : Reg) (b : Byte) : (s.setReg x b).mem = s.mem := rfl
@[simp] theorem State.setReg_v (x : Reg) (b : Byte) : (s.setReg x b).v = s.v.set x b := rfl
@[simp] theorem State.setReg_i (x : Reg) (b : Byte) : (s.setReg x b).i = s.i := rfl
@[simp] theorem State.setReg_pc (x : Reg) (b : Byte) : (s.setReg x b).pc = s.pc := rfl
@[simp] theorem State.setReg_sp (x : Reg) (b : Byte) : (s.setReg x b).sp = s.sp := rfl
@[simp] theorem State.setReg_stack (x : Reg) (b : Byte) : (s.setReg x b).stack = s.stack := rfl
@[simp] theorem State.setReg_dt (x : Reg) (b : Byte) : (s.setReg x b).dt = s.dt := rfl
@[simp] theorem State.setReg_st (x : Reg) (b : Byte) : (s.setReg x b).st = s.st := rfl
@[simp] theorem State.setReg_kbd (x : Reg) (b : Byte) : (s.setReg x b).kbd = s.kbd := rfl
@[simp] theorem State.setReg_fb (x : Reg) (b : Byte) : (s.setReg x b).fb = s.fb := rfl
@[simp] theorem State.setReg_tmrEpoch (x : Reg) (b : Byte) : (s.setReg x b).tmrEpoch = s.tmrEpoch := rfl
@[simp] theorem State.setReg_tmrDone (x : Reg) (b : Byte) : (s.setReg x b).tmrDone = s.tmrDone := rfl
@[simp] theorem State.setReg_fault (x : Reg) (b : Byte) : (s.setReg x b).fault = s.fault := rfl
@[simp] theorem State.setReg_params (x : Reg) (b : Byte) : (s.setReg x b).params = s.params := rfl
@[simp] theorem State.setReg_draws (x : Reg) (b : Byte) : (s.setReg x b).draws = s.draws := rfl

/-! ### setPc -/

@[simp] theorem State.setPc_mem (a : Word) : (s.setPc a).mem = s.mem := rfl
@[simp] theorem State.setPc_v (a : Word) : (s.setPc a).v = s.v := rfl
@[simp] theorem State.setPc_i (a : Word) : (s.setPc a).i = s.i := rfl
@[simp] theorem State.setPc_pc (a : Word) : (s.setPc a).pc = a := rfl
@[simp] theorem State.setPc_sp (a : Word) : (s.setPc a).sp = s.sp := rfl
@[simp] theorem State.setPc_stack (a : Word) : (s.setPc a).stack = s.stack := rfl
@[simp] theorem State.setPc_dt (a : Word) : (s.setPc a).dt = s.dt := rfl
@[simp] theorem State.setPc_st (a : Word) : (s.setPc a).st = s.st := rfl
@[simp] theorem State.setPc_kbd (a : Word) : (s.setPc a).kbd = s.kbd := rfl
@[simp] theorem State.setPc_fb (a : Word) : (s.setPc a).fb = s.fb := rfl
@[simp] theorem State.setPc_tmrEpoch (a : Word) : (s.setPc a).tmrEpoch = s.tmrEpoch := rfl
@[simp] theorem State.setPc_tmrDone (a : Word) : (s.setPc a).tmrDone = s.tmrDone := rfl
@[simp] theorem State.setPc_fault (a : Word) : (s.setPc a).fault = s.fault := rfl
@[simp] theorem State.setPc_params (a : Word) : (s.setPc a).params = s.params := rfl
@[simp] theorem State.setPc_draws (a : Word) : (s.setPc a).draws = s.draws := rfl
@[simp] theorem State.setPc_reg (a : Word) (q : Reg) : (s.setPc a).reg q = s.reg q := rfl

/-! ### setI -/

@[simp] theorem State.setI_mem (a : Word) : (s.setI a).mem = s.mem := rfl
@[simp] theorem State.setI_v (a : Word) : (s.setI a).v = s.v := rfl
@[simp] theorem State.setI_i (a : Word) : (s.setI a).i = a := rfl
@[simp] theorem State.setI_pc (a : Word) : (s.setI a).pc = s.pc := rfl
@[simp] theorem State.setI_sp (a : Word) : (s.setI a).sp = s.sp := rfl
@[simp] theorem State.setI_stack (a : Word) : (s.setI a).stack = s.stack := rfl
@[simp] theorem State.setI_dt (a : Word) : (s.setI a).dt = s.dt := rfl
@[simp] theorem State.setI_st (a : Word) : (s.setI a).st = s.st := rfl
@[simp] theorem State.setI_kbd (a : Word) : (s.setI a).kbd = s.kbd := rfl
@[simp] theorem State.setI_fb (a : Word) : (s.setI a).fb = s.fb := rfl
@[simp] theorem State.setI_tmrEpoch (a : Word) : (s.setI a).tmrEpoch = s.tmrEpoch := rfl
@[simp] theorem State.setI_tmrDone (a : Word) : (s.setI a).tmrDone = s.tmrDone := rfl
@[simp] theorem State.setI_fault (a : Word) : (s.setI a).fault = s.fault := rfl
@[simp] theorem State.setI_params (a : Word) : (s.setI a).params = s.params := rfl
@[simp] theorem State.setI_draws (a : Word) : (s.setI a).draws = s.draws := rfl
@[simp] theorem State.setI_reg (a : Word) (q : Reg) : (s.setI a).reg q = s.reg q := rfl

/-! ### setDt -/

@[simp] theorem State.setDt_mem (b : Byte) : (s.setDt b).mem = s.mem := rfl
@[simp] theorem State.setDt_v (b : Byte) : (s.setDt b).v = s.v := rfl
@[simp] theorem State.setDt_i (b : Byte) : (s.setDt b).i = s.i := rfl
@[simp] theorem State.setDt_pc (b : Byte) : (s.setDt b).pc = s.pc := rfl
@[simp] theorem State.setDt_sp (b : Byte) : (s.setDt b).sp = s.sp := rfl
@[simp] theorem State.setDt_stack (b : Byte) : (s.setDt b).stack = s.stack := rfl
@[simp] theorem State.setDt_dt (b : Byte) : (s.setDt b).dt = b := rfl
@[simp] theorem State.setDt_st (b : Byte) : (s.setDt b).st = s.st := rfl
@[simp] theorem State.setDt_kbd (b : Byte) : (s.setDt b).kbd = s.kbd := rfl
@[simp] theorem State.setDt_fb (b : Byte) : (s.setDt b).fb = s.fb := rfl
@[simp] theorem State.setDt_tmrEpoch (b : Byte) : (s.setDt b).tmrEpoch = s.tmrEpoch := rfl
@[simp] theorem State.setDt_tmrDone (b : Byte) : (s.setDt b).tmrDone = s.tmrDone := rfl
@[simp] theorem State.setDt_fault (b : Byte) : (s.setDt b).fault = s.fault := rfl
@[simp] theorem State.setDt_params (b : Byte) : (s.setDt b).params = s.params := rfl
@[simp] theorem State.setDt_draws (b : Byte) : (s.setDt b).draws = s.draws := rfl
@[simp] theorem State.setDt_reg (b : Byte) (q : Reg) : (s.setDt b).reg q = s.reg q := rfl

/-! ### setSt -/

@[simp] theorem State.setSt_mem (b : Byte) : (s.setSt b).mem = s.mem := rfl
@[simp] theorem State.setSt_v (b : Byte) : (s.setSt b).v = s.v := rfl
@[simp] theorem State.setSt_i (b : Byte) : (s.setSt b).i = s.i := rfl
@[simp] theorem State.setSt_pc (b : Byte) : (s.setSt b).pc = s.pc := rfl
@[simp] theorem State.setSt_sp (b : Byte) : (s.setSt b).sp = s.sp := rfl
@[simp] theorem State.setSt_stack (b : Byte) : (s.setSt b).stack = s.stack := rfl
@[simp] theorem State.setSt_dt (b : Byte) : (s.setSt b).dt = s.dt := rfl
@[simp] theorem State.setSt_st (b : Byte) : (s.setSt b).st = b := rfl
@[simp] theorem State.setSt_kbd (b : Byte) : (s.setSt b).kbd = s.kbd := rfl
@[simp] theorem State.setSt_fb (b : Byte) : (s.setSt b).fb = s.fb := rfl
@[simp] theorem State.setSt_tmrEpoch (b : Byte) : (s.setSt b).tmrEpoch = s.tmrEpoch := rfl
@[simp] theorem State.setSt_tmrDone (b : Byte) : (s.setSt b).tmrDone = s.tmrDone := rfl
@[simp] theorem State.setSt_fault (b : Byte) : (s.setSt b).fault = s.fault := rfl
@[simp] theorem State.setSt_params (b : Byte) : (s.setSt b).params = s.params := rfl
@[simp] theorem State.setSt_draws (b : Byte) : (s.setSt b).draws = s.draws := rfl
@[simp] theorem State.setSt_reg (b : Byte) (q : Reg) : (s.setSt b).reg q = s.reg q := rfl

/-! ### setKbd -/

@[simp] theorem State.setKbd_mem (k : Word) : (s.setKbd k).mem = s.mem := rfl
@[simp] theorem State.setKbd_v (k : Word) : (s.setKbd k).v = s.v := rfl
@[simp] theorem State.setKbd_i (k : Word) : (s.setKbd k).i = s.i := rfl
@[simp] theorem State.setKbd_pc (k : Word) : (s.setKbd k).pc = s.pc := rfl
@[simp] theorem State.setKbd_sp (k : Word) : (s.setKbd k).sp = s.sp := rfl
@[simp] theorem State.setKbd_stack (k : Word) : (s.setKbd k).stack = s.stack := rfl
@[simp] theorem State.setKbd_dt (k : Word) : (s.setKbd k).dt = s.dt := rfl
@[simp] theorem State.setKbd_st (k : Word) : (s.setKbd k).st = s.st := rfl
@[simp] theorem State.setKbd_kbd (k : Word) : (s.setKbd k).kbd = k := rfl
@[simp] theorem State.setKbd_fb (k : Word) : (s.setKbd k).fb = s.fb := rfl
@[simp] theorem State.setKbd_tmrEpoch (k : Word) : (s.setKbd k).tmrEpoch = s.tmrEpoch := rfl
@[simp] theorem State.setKbd_tmrDone (k : Word) : (s.setKbd k).tmrDone = s.tmrDone := rfl
@[simp] theorem State.setKbd_fault (k : Word) : (s.setKbd k).fault = s.fault := rfl
@[simp] theorem State.setKbd_params (k : Word) : (s.setKbd k).params = s.params := rfl
@[simp] theorem State.setKbd_draws (k : Word) : (s.setKbd k).draws = s.draws := rfl
@[simp] theorem State.setKbd_reg (k : Word) (q : Reg) : (s.setKbd k).reg q = s.reg q := rfl

/-! ### setMem -/

@[simp] theorem State.setMem_mem (m : Memory) : (s.setMem m).mem = m := rfl
@[simp] theorem State.setMem_v (m : Memory) : (s.setMem m).v = s.v := rfl
@[simp] theorem State.setMem_i (m : Memory) : (s.setMem m).i = s.i := rfl
@[simp] theorem State.setMem_pc (m : Memory) : (s.setMem m).pc = s.pc := rfl
@[simp] theorem State.setMem_sp (m : Memory) : (s.setMem m).sp = s.sp := rfl
@[simp] theorem State.setMem_stack (m : Memory) : (s.setMem m).stack = s.stack := rfl
@[simp] theorem State.setMem_dt (m : Memory) : (s.setMem m).dt = s.dt := rfl
@[simp] theorem State.setMem_st (m : Memory) : (s.setMem m).st = s.st := rfl
@[simp] theorem State.setMem_kbd (m : Memory) : (s.setMem m).kbd = s.kbd := rfl
@[simp] theorem State.setMem_fb (m : Memory) : (s.setMem m).fb = s.fb := rfl
@[simp] theorem State.setMem_tmrEpoch (m : Memory) : (s.setMem m).tmrEpoch = s.tmrEpoch := rfl
@[simp] theorem State.setMem_tmrDone (m : Memory) : (s.setMem m).tmrDone = s.tmrDone := rfl
@[simp] theorem State.setMem_fault (m : Memory) : (s.setMem m).fault = s.fault := rfl
@[simp] theorem State.setMem_params (m : Memory) : (s.setMem m).params = s.params := rfl
@[simp] theorem State.setMem_draws (m : Memory) : (s.setMem m).draws = s.draws := rfl
@[simp] theorem State.setMem_reg (m : Memory) (q : Reg) : (s.setMem m).reg q = s.reg q := rfl

/-! ### setFb -/

@[simp] theorem State.setFb_mem (f : Framebuffer) : (s.setFb f).mem = s.mem := rfl
@[simp] theorem State.setFb_v (f : Framebuffer) : (s.setFb f).v = s.v := rfl
@[simp] theorem State.setFb_i (f : Framebuffer) : (s.setFb f).i = s.i := rfl
@[simp] theorem State.setFb_pc (f : Framebuffer) : (s.setFb f).pc = s.pc := rfl
@[simp] theorem State.setFb_sp (f : Framebuffer) : (s.setFb f).sp = s.sp := rfl
@[simp] theorem State.setFb_stack (f : Framebuffer) : (s.setFb f).stack = s.stack := rfl
@[simp] theorem State.setFb_dt (f : Framebuffer) : (s.setFb f).dt = s.dt := rfl
@[simp] theorem State.setFb_st (f : Framebuffer) : (s.setFb f).st = s.st := rfl
@[simp] theorem State.setFb_kbd (f : Framebuffer) : (s.setFb f).kbd = s.kbd := rfl
@[simp] theorem State.setFb_fb (f : Framebuffer) : (s.setFb f).fb = f := rfl
@[simp] theorem State.setFb_tmrEpoch (f : Framebuffer) : (s.setFb f).tmrEpoch = s.tmrEpoch := rfl
@[simp] theorem State.setFb_tmrDone (f : Framebuffer) : (s.setFb f).tmrDone = s.tmrDone := rfl
@[simp] theorem State.setFb_fault (f : Framebuffer) : (s.setFb f).fault = s.fault := rfl
@[simp] theorem State.setFb_params (f : Framebuffer) : (s.setFb f).params = s.params := rfl
@[simp] theorem State.setFb_draws (f : Framebuffer) : (s.setFb f).draws = s.draws := rfl
@[simp] theorem State.setFb_reg (f : Framebuffer) (q : Reg) : (s.setFb f).reg q = s.reg q := rfl

/-! ### setFault -/

@[simp] theorem State.setFault_mem (r : Option FaultRecord) : (s.setFault r).mem = s.mem := rfl
@[simp] theorem State.setFault_v (r : Option FaultRecord) : (s.setFault r).v = s.v := rfl
@[simp] theorem State.setFault_i (r : Option FaultRecord) : (s.setFault r).i = s.i := rfl
@[simp] theorem State.setFault_pc (r : Option FaultRecord) : (s.setFault r).pc = s.pc := rfl
@[simp] theorem State.setFault_sp (r : Option FaultRecord) : (s.setFault r).sp = s.sp := rfl
@[simp] theorem State.setFault_stack (r : Option FaultRecord) : (s.setFault r).stack = s.stack := rfl
@[simp] theorem State.setFault_dt (r : Option FaultRecord) : (s.setFault r).dt = s.dt := rfl
@[simp] theorem State.setFault_st (r : Option FaultRecord) : (s.setFault r).st = s.st := rfl
@[simp] theorem State.setFault_kbd (r : Option FaultRecord) : (s.setFault r).kbd = s.kbd := rfl
@[simp] theorem State.setFault_fb (r : Option FaultRecord) : (s.setFault r).fb = s.fb := rfl
@[simp] theorem State.setFault_tmrEpoch (r : Option FaultRecord) : (s.setFault r).tmrEpoch = s.tmrEpoch := rfl
@[simp] theorem State.setFault_tmrDone (r : Option FaultRecord) : (s.setFault r).tmrDone = s.tmrDone := rfl
@[simp] theorem State.setFault_fault (r : Option FaultRecord) : (s.setFault r).fault = r := rfl
@[simp] theorem State.setFault_params (r : Option FaultRecord) : (s.setFault r).params = s.params := rfl
@[simp] theorem State.setFault_draws (r : Option FaultRecord) : (s.setFault r).draws = s.draws := rfl
@[simp] theorem State.setFault_reg (r : Option FaultRecord) (q : Reg) : (s.setFault r).reg q = s.reg q := rfl

/-! ### setTimerClock -/

@[simp] theorem State.setTimerClock_mem (e : Option Nat) (d : Nat) : (s.setTimerClock e d).mem = s.mem := rfl
@[simp] theorem State.setTimerClock_v (e : Option Nat) (d : Nat) : (s.setTimerClock e d).v = s.v := rfl
@[simp] theorem State.setTimerClock_i (e : Option Nat) (d : Nat) : (s.setTimerClock e d).i = s.i := rfl
@[simp] theorem State.setTimerClock_pc (e : Option Nat) (d : Nat) : (s.setTimerClock e d).pc = s.pc := rfl
@[simp] theorem State.setTimerClock_sp (e : Option Nat) (d : Nat) : (s.setTimerClock e d).sp = s.sp := rfl
@[simp] theorem State.setTimerClock_stack (e : Option Nat) (d : Nat) : (s.setTimerClock e d).stack = s.stack := rfl
@[simp] theorem State.setTimerClock_dt (e : Option Nat) (d : Nat) : (s.setTimerClock e d).dt = s.dt := rfl
@[simp] theorem State.setTimerClock_st (e : Option Nat) (d : Nat) : (s.setTimerClock e d).st = s.st := rfl
@[simp] theorem State.setTimerClock_kbd (e : Option Nat) (d : Nat) : (s.setTimerClock e d).kbd = s.kbd := rfl
@[simp] theorem State.setTimerClock_fb (e : Option Nat) (d : Nat) : (s.setTimerClock e d).fb = s.fb := rfl
@[simp] theorem State.setTimerClock_tmrEpoch (e : Option Nat) (d : Nat) : (s.setTimerClock e d).tmrEpoch = e := rfl
@[simp] theorem State.setTimerClock_tmrDone (e : Option Nat) (d : Nat) : (s.setTimerClock e d).tmrDone = d := rfl
@[simp] theorem State.setTimerClock_fault (e : Option Nat) (d : Nat) : (s.setTimerClock e d).fault = s.fault := rfl
@[simp] theorem State.setTimerClock_params (e : Option Nat) (d : Nat) : (s.setTimerClock e d).params = s.params := rfl
@[simp] theorem State.setTimerClock_draws (e : Option Nat) (d : Nat) : (s.setTimerClock e d).draws = s.draws := rfl
@[simp] theorem State.setTimerClock_reg (e : Option Nat) (d : Nat) (q : Reg) : (s.setTimerClock e d).reg q = s.reg q := rfl

/-! ### nextDraw -/

@[simp] theorem State.nextDraw_mem : (s.nextDraw).mem = s.mem := rfl
@[simp] theorem State.nextDraw_v : (s.nextDraw).v = s.v := rfl
@[simp] theorem State.nextDraw_i : (s.nextDraw).i = s.i := rfl
@[simp] theorem State.nextDraw_pc : (s.nextDraw).pc = s.pc := rfl
@[simp] theorem State.nextDraw_sp : (s.nextDraw).sp = s.sp := rfl
@[simp] theorem State.nextDraw_stack : (s.nextDraw).stack = s.stack := rfl
@[simp] theorem State.nextDraw_dt : (s.nextDraw).dt = s.dt := rfl
@[simp] theorem State.nextDraw_st : (s.nextDraw).st = s.st := rfl
@[simp] theorem State.nextDraw_kbd : (s.nextDraw).kbd = s.kbd := rfl
@[simp] theorem State.nextDraw_fb : (s.nextDraw).fb = s.fb := rfl
@[simp] theorem State.nextDraw_tmrEpoch : (s.nextDraw).tmrEpoch = s.tmrEpoch := rfl
@[simp] theorem State.nextDraw_tmrDone : (s.nextDraw).tmrDone = s.tmrDone := rfl
@[simp] theorem State.nextDraw_fault : (s.nextDraw).fault = s.fault := rfl
@[simp] theorem State.nextDraw_params : (s.nextDraw).params = s.params := rfl
@[simp] theorem State.nextDraw_draws : (s.nextDraw).draws = s.draws + 1 := rfl
@[simp] theorem State.nextDraw_reg (q : Reg) : (s.nextDraw).reg q = s.reg q := rfl

/-! ### advance -/

@[simp] theorem State.advance_mem : (s.advance).mem = s.mem := rfl
@[simp] theorem State.advance_v : (s.advance).v = s.v := rfl
@[simp] theorem State.advance_i : (s.advance).i = s.i := rfl
@[simp] theorem State.advance_pc : (s.advance).pc = s.pc + 2 := rfl
@[simp] theorem State.advance_sp : (s.advance).sp = s.sp := rfl
@[simp] theorem State.advance_stack : (s.advance).stack = s.stack := rfl
@[simp] theorem State.advance_dt : (s.advance).dt = s.dt := rfl
@[simp] theorem State.advance_st : (s.advance).st = s.st := rfl
@[simp] theorem State.advance_kbd : (s.advance).kbd = s.kbd := rfl
@[simp] theorem State.advance_fb : (s.advance).fb = s.fb := rfl
@[simp] theorem State.advance_tmrEpoch : (s.advance).tmrEpoch = s.tmrEpoch := rfl
@[simp] theorem State.advance_tmrDone : (s.advance).tmrDone = s.tmrDone := rfl
@[simp] theorem State.advance_fault : (s.advance).fault = s.fault := rfl
@[simp] theorem State.advance_params : (s.advance).params = s.params := rfl
@[simp] theorem State.advance_draws : (s.advance).draws = s.draws := rfl
@[simp] theorem State.advance_reg (q : Reg) : (s.advance).reg q = s.reg q := rfl

/-! ### retreat -/

@[simp] theorem State.retreat_mem : (s.retreat).mem = s.mem := rfl
@[simp] theorem State.retreat_v : (s.retreat).v = s.v := rfl
@[simp] theorem State.retreat_i : (s.retreat).i = s.i := rfl
@[simp] theorem State.retreat_pc : (s.retreat).pc = s.pc - 2 := rfl
@[simp] theorem State.retreat_sp : (s.retreat).sp = s.sp := rfl
@[simp] theorem State.retreat_stack : (s.retreat).stack = s.stack := rfl
@[simp] theorem State.retreat_dt : (s.retreat).dt = s.dt := rfl
@[simp] theorem State.retreat_st : (s.retreat).st = s.st := rfl
@[simp] theorem State.retreat_kbd : (s.retreat).kbd = s.kbd := rfl
@[simp] theorem State.retreat_fb : (s.retreat).fb = s.fb := rfl
@[simp] theorem State.retreat_tmrEpoch : (s.retreat).tmrEpoch = s.tmrEpoch := rfl
@[simp] theorem State.retreat_tmrDone : (s.retreat).tmrDone = s.tmrDone := rfl
@[simp] theorem State.retreat_fault : (s.retreat).fault = s.fault := rfl
@[simp] theorem State.retreat_params : (s.retreat).params = s.params := rfl
@[simp] theorem State.retreat_draws : (s.retreat).draws = s.draws := rfl
@[simp] theorem State.retreat_reg (q : Reg) : (s.retreat).reg q = s.reg q := rfl

/-! ### resetOp -/

@[simp] theorem State.resetOp_mem : (s.resetOp).mem = State.reset.mem := rfl
@[simp] theorem State.resetOp_v : (s.resetOp).v = State.reset.v := rfl
@[simp] theorem State.resetOp_i : (s.resetOp).i = State.reset.i := rfl
@[simp] theorem State.resetOp_pc : (s.resetOp).pc = State.reset.pc := rfl
@[simp] theorem State.resetOp_sp : (s.resetOp).sp = State.reset.sp := rfl
@[simp] theorem State.resetOp_stack : (s.resetOp).stack = State.reset.stack := rfl
@[simp] theorem State.resetOp_dt : (s.resetOp).dt = State.reset.dt := rfl
@[simp] theorem State.resetOp_st : (s.resetOp).st = State.reset.st := rfl
@[simp] theorem State.resetOp_kbd : (s.resetOp).kbd = State.reset.kbd := rfl
@[simp] theorem State.resetOp_fb : (s.resetOp).fb = State.reset.fb := rfl
@[simp] theorem State.resetOp_tmrEpoch : (s.resetOp).tmrEpoch = State.reset.tmrEpoch := rfl
@[simp] theorem State.resetOp_tmrDone : (s.resetOp).tmrDone = State.reset.tmrDone := rfl
@[simp] theorem State.resetOp_fault : (s.resetOp).fault = State.reset.fault := rfl
@[simp] theorem State.resetOp_params : (s.resetOp).params = s.params := rfl
@[simp] theorem State.resetOp_draws : (s.resetOp).draws = s.draws := rfl

/-! ### The spec's record under a machine's parameters -/

@[simp] theorem CoreState.under_toCoreState (c : CoreState) (p : Params) : (c.under p).toCoreState = c := rfl
@[simp] theorem CoreState.under_params (c : CoreState) (p : Params) : (c.under p).params = p := rfl

@[simp] theorem State.resetOp_toCoreState : s.resetOp.toCoreState = CoreState.reset := rfl
@[simp] theorem State.nextDraw_toCoreState : s.nextDraw.toCoreState = s.toCoreState := rfl

/-- States that agree on the spec's record and on the parameters differ in the draw counter alone. -/
theorem State.eq_of_agree {s t : State} (h : s.toCoreState = t.toCoreState) (hp : s.params = t.params) :
    t = { s with draws := t.draws } := by
  cases s
  cases t
  cases h
  cases hp
  rfl

/-! ### Registers -/

/-- A register reads what was last written to it, and a write leaves the others alone. -/
theorem State.reg_setReg (x y : Reg) (b : Byte) : (s.setReg x b).reg y = if y = x then b else s.reg y := by
  simp only [State.setReg, State.reg, Fin.getElem_fin, Vector.getElem_set, Fin.ext_iff, eq_comm]

@[simp] theorem State.reg_setReg_self (x : Reg) (b : Byte) : (s.setReg x b).reg x = b := by
  simp [State.reg_setReg]

@[simp] theorem State.reg_setReg_ne {x y : Reg} (b : Byte) (h : y ≠ x) : (s.setReg x b).reg y = s.reg y := by
  simp [State.reg_setReg, h]

@[simp] theorem State.resetOp_reg (r : Reg) : s.resetOp.reg r = 0 := by
  simp [State.reg, CoreState.reset]

/-! ### skipIf -/

theorem State.skipIf_eq (c : Bool) : s.skipIf c = s.setPc (if c then s.pc + 2 else s.pc) := by
  cases c <;> rfl

/-! ### setRegFlag -/

/-- After a result and its flag, VF is the flag, and any other register is the result if it is the destination. -/
theorem State.reg_setRegFlag (x y : Reg) (b : Byte) (f : Bool) :
    (s.setRegFlag x b f).reg y = if y = VF then (if f then 1 else 0) else if y = x then b else s.reg y := by
  simp only [State.setRegFlag, State.reg_setReg]

/-! ### decay -/

@[simp] theorem State.decay_mem (k : Nat) : (s.decay k).mem = s.mem := rfl
@[simp] theorem State.decay_v (k : Nat) : (s.decay k).v = s.v := rfl
@[simp] theorem State.decay_i (k : Nat) : (s.decay k).i = s.i := rfl
@[simp] theorem State.decay_pc (k : Nat) : (s.decay k).pc = s.pc := rfl
@[simp] theorem State.decay_sp (k : Nat) : (s.decay k).sp = s.sp := rfl
@[simp] theorem State.decay_stack (k : Nat) : (s.decay k).stack = s.stack := rfl
@[simp] theorem State.decay_dt (k : Nat) : (s.decay k).dt = decayed s.dt k := rfl
@[simp] theorem State.decay_st (k : Nat) : (s.decay k).st = decayed s.st k := rfl
@[simp] theorem State.decay_kbd (k : Nat) : (s.decay k).kbd = s.kbd := rfl
@[simp] theorem State.decay_fb (k : Nat) : (s.decay k).fb = s.fb := rfl
@[simp] theorem State.decay_tmrEpoch (k : Nat) : (s.decay k).tmrEpoch = s.tmrEpoch := rfl
@[simp] theorem State.decay_tmrDone (k : Nat) : (s.decay k).tmrDone = s.tmrDone := rfl
@[simp] theorem State.decay_fault (k : Nat) : (s.decay k).fault = s.fault := rfl
@[simp] theorem State.decay_params (k : Nat) : (s.decay k).params = s.params := rfl
@[simp] theorem State.decay_draws (k : Nat) : (s.decay k).draws = s.draws := rfl

/-! ### Frames -/

/-- A frame may be weakened. -/
theorem OnlyChanges.mono {T T' : Part → Prop} {s t : State} (h : OnlyChanges T s t) (hT : ∀ p, T p → T' p) :
    OnlyChanges T' s t := fun p hp => h p fun h' => hp (hT p h')

/-- Frames compose. -/
theorem OnlyChanges.trans {T : Part → Prop} {s t u : State} (h : OnlyChanges T s t) (h' : OnlyChanges T t u) :
    OnlyChanges T s u := by
  intro p hp
  have h1 := h p hp
  have h2 := h' p hp
  cases p <;> simp only [Unchanged] at h1 h2 ⊢ <;> rw [h2, h1]

end Sys2Proof.Machine
end

