-- ==== Sys2Proof/Laws/Framebuffer.lean ====
section
/-! SUPPORT. The framebuffer: what a pixel reads after a toggle, and that a toggle on the screen keeps the canonical
form (43_display R162). -/

namespace Sys2Proof.Machine

theorem pixelLt_iff (p q : Pixel) : pixelLt p q = true ↔ p.1 < q.1 ∨ (p.1 = q.1 ∧ p.2 < q.2) := by
  simp [pixelLt]

theorem pixelLt_trans {p q r : Pixel} (h : pixelLt p q = true) (h' : pixelLt q r = true) : pixelLt p r = true := by
  rw [pixelLt_iff] at *; omega

theorem pixelLt_irrefl (p : Pixel) : pixelLt p p = false := by
  simp [pixelLt]

theorem pixelLt_of_not {p q : Pixel} (hne : p ≠ q) (h : ¬ pixelLt p q = true) : pixelLt q p = true := by
  rw [pixelLt_iff] at *
  have : p.1 ≠ q.1 ∨ p.2 ≠ q.2 := by
    by_contra hc
    simp only [not_or, ne_eq, not_not] at hc
    exact hne (Prod.ext hc.1 hc.2)
  omega

/-- A pixel is above a bound, or there is no bound. -/
def AbovePixel (prev : Option Pixel) (p : Pixel) : Prop := ∀ q, prev = some q → pixelLt q p = true

/-- The canonical form of a list with a first pixel. -/
theorem Framebuffer.wfFrom_cons {height : Nat} {prev : Option Pixel} {p : Pixel} {rest : Framebuffer} :
    Framebuffer.wfFrom height prev (p :: rest) = true ↔
      AbovePixel prev p ∧ p.1 < width ∧ p.2 < height ∧ Framebuffer.wfFrom height (some p) rest = true := by
  cases prev <;> simp [Framebuffer.wfFrom, AbovePixel, and_assoc]

/-- Every pixel of a list in canonical form is above its bound. -/
theorem Framebuffer.above_of_mem {height : Nat} {prev : Option Pixel} {f : Framebuffer}
    (h : f.wfFrom height prev = true) {p : Pixel} (hp : p ∈ f) : AbovePixel prev p := by
  induction f generalizing prev with
  | nil => simp at hp
  | cons q rest ih =>
    rw [Framebuffer.wfFrom_cons] at h
    rcases List.mem_cons.1 hp with rfl | hp
    · exact h.1
    · intro r hr
      exact pixelLt_trans (h.1 r hr) (ih h.2.2.2 hp q rfl)

/-- A pixel of a list in canonical form is on the screen. -/
theorem Framebuffer.onScreen_of_mem {height : Nat} {prev : Option Pixel} {f : Framebuffer}
    (h : f.wfFrom height prev = true) {p : Pixel} (hp : p ∈ f) : p.1 < width ∧ p.2 < height := by
  induction f generalizing prev with
  | nil => simp at hp
  | cons q rest ih =>
    rw [Framebuffer.wfFrom_cons] at h
    rcases List.mem_cons.1 hp with rfl | hp
    · exact ⟨h.2.1, h.2.2.1⟩
    · exact ih h.2.2.2 hp

/-- The first pixel of a list in canonical form does not stand in the rest. -/
theorem Framebuffer.not_mem_rest {height : Nat} {prev : Option Pixel} {p : Pixel} {rest : Framebuffer}
    (h : Framebuffer.wfFrom height prev (p :: rest) = true) : p ∉ rest := fun hp => by
  have := Framebuffer.above_of_mem (Framebuffer.wfFrom_cons.1 h).2.2.2 hp p rfl
  simp [pixelLt_irrefl] at this

/-- Membership after a toggle: the toggled pixel is flipped, every other is as before. -/
theorem Framebuffer.mem_toggle_from {height : Nat} {prev : Option Pixel} {f : Framebuffer}
    (h : f.wfFrom height prev = true) (p q : Pixel) : q ∈ f.toggle p ↔ if q = p then p ∉ f else q ∈ f := by
  induction f generalizing prev with
  | nil => by_cases hq : q = p <;> simp [Framebuffer.toggle, hq]
  | cons r rest ih =>
    have hr := Framebuffer.not_mem_rest h
    have h2 := (Framebuffer.wfFrom_cons.1 h).2.2.2
    simp only [Framebuffer.toggle]
    by_cases hpr : p = r
    · subst hpr
      by_cases hq : q = p <;> simp [hq, hr]
    · rw [if_neg hpr]
      split
      · rename_i hlt
        have hnot : p ∉ rest := fun hp => by
          have h3 := pixelLt_trans (Framebuffer.above_of_mem h2 hp r rfl) hlt
          simp [pixelLt_irrefl] at h3
        by_cases hq : q = p <;> simp [hq, hpr, hnot]
      · rw [List.mem_cons, ih h2]
        by_cases hq : q = p
        · subst hq; simp [hpr]
        · simp [hq]

/-- In any framebuffer at all, a toggle leaves every other pixel alone. -/
theorem Framebuffer.mem_toggle_ne (f : Framebuffer) {p q : Pixel} (h : q ≠ p) : q ∈ f.toggle p ↔ q ∈ f := by
  induction f with
  | nil => simp [Framebuffer.toggle, h]
  | cons r rest ih =>
    simp only [Framebuffer.toggle]
    split
    · subst p; simp [h]
    · split
      · simp [h]
      · simp [ih]

/-- A toggle of a pixel on the screen keeps the canonical form above any bound the pixel is above. -/
theorem Framebuffer.wfFrom_toggle {height : Nat} {prev : Option Pixel} {f : Framebuffer}
    (h : f.wfFrom height prev = true) {p : Pixel} (hp : AbovePixel prev p) (hx : p.1 < width) (hy : p.2 < height) :
    (f.toggle p).wfFrom height prev = true := by
  induction f generalizing prev with
  | nil => rw [Framebuffer.toggle, Framebuffer.wfFrom_cons]; exact ⟨hp, hx, hy, rfl⟩
  | cons r rest ih =>
    have h' := Framebuffer.wfFrom_cons.1 h
    simp only [Framebuffer.toggle]
    split
    · subst p
      cases rest with
      | nil => rfl
      | cons q rest =>
        have h2 := Framebuffer.wfFrom_cons.1 h'.2.2.2
        rw [Framebuffer.wfFrom_cons]
        exact ⟨fun u hu => pixelLt_trans (h'.1 u hu) (h2.1 r rfl), h2.2⟩
    · split
      · rename_i hlt
        rw [Framebuffer.wfFrom_cons]
        refine ⟨hp, hx, hy, Framebuffer.wfFrom_cons.2 ⟨?_, h'.2⟩⟩
        intro u hu
        injection hu with hu
        subst hu
        exact hlt
      · rw [Framebuffer.wfFrom_cons]
        refine ⟨h'.1, h'.2.1, h'.2.2.1, ih h'.2.2.2 ?_⟩
        intro u hu
        injection hu with hu
        subst hu
        exact pixelLt_of_not ‹_› ‹_›

/-- The canonical form is kept by a toggle on the screen. -/
theorem Framebuffer.wf_toggle {height : Nat} {f : Framebuffer} (h : f.wf height = true) {p : Pixel} (hx : p.1 < width)
    (hy : p.2 < height) : (f.toggle p).wf height = true :=
  Framebuffer.wfFrom_toggle h (fun _ hq => by cases hq) hx hy

/-- What a pixel reads after a toggle. -/
theorem Framebuffer.pixel_toggle {height : Nat} {f : Framebuffer} (h : f.wf height = true) (p : Pixel) (x y : Nat) :
    (f.toggle p).pixel x y = if (x, y) = p then !f.pixel x y else f.pixel x y := by
  have hm := Framebuffer.mem_toggle_from h p (x, y)
  simp only [Framebuffer.pixel]
  split <;> simp_all

@[simp] theorem Framebuffer.pixel_nil (x y : Nat) : Framebuffer.pixel [] x y = false := by simp [Framebuffer.pixel]

/-- Equal pixels make equal framebuffers, in canonical form. -/
theorem Framebuffer.ext_from {height : Nat} {prev : Option Pixel} {f g : Framebuffer}
    (hf : f.wfFrom height prev = true) (hg : g.wfFrom height prev = true) (heq : ∀ p, p ∈ f ↔ p ∈ g) : f = g := by
  induction f generalizing prev g with
  | nil =>
    cases g with
    | nil => rfl
    | cons q rest => exact absurd ((heq q).2 (by simp)) (by simp)
  | cons p rest ih =>
    cases g with
    | nil => exact absurd ((heq p).1 (by simp)) (by simp)
    | cons q rest' =>
      have hf' := Framebuffer.wfFrom_cons.1 hf
      have hg' := Framebuffer.wfFrom_cons.1 hg
      have hpq : p = q := by
        by_contra hne
        have hp : p ∈ rest' := by
          rcases List.mem_cons.1 ((heq p).1 (by simp)) with h | h
          · exact absurd h hne
          · exact h
        have hq : q ∈ rest := by
          rcases List.mem_cons.1 ((heq q).2 (by simp)) with h | h
          · exact absurd h.symm hne
          · exact h
        have h1 := Framebuffer.above_of_mem hg'.2.2.2 hp q rfl
        have h2 := Framebuffer.above_of_mem hf'.2.2.2 hq p rfl
        have := pixelLt_trans h1 h2
        simp [pixelLt_irrefl] at this
      subst hpq
      congr 1
      refine ih hf'.2.2.2 hg'.2.2.2 fun r => ?_
      have h1 := Framebuffer.not_mem_rest hf
      have h2 := Framebuffer.not_mem_rest hg
      have := heq r
      simp only [List.mem_cons] at this
      by_cases hr : r = p
      · subst hr; simp [h1, h2]
      · simpa [hr] using this

/-- Equal pixels make equal framebuffers, in canonical form. -/
theorem Framebuffer.ext {height : Nat} {f g : Framebuffer} (hf : f.wf height = true) (hg : g.wf height = true)
    (heq : ∀ x y, f.pixel x y = g.pixel x y) : f = g :=
  Framebuffer.ext_from hf hg fun p => by
    have := heq p.1 p.2
    simpa [Framebuffer.pixel] using this

end Sys2Proof.Machine
end

