-- ==== Sys2Proof/Laws/Memory.lean ====
section
/-! SUPPORT. Memory: what a byte reads after a write, and that every operation keeps the canonical form. -/

namespace Sys2Proof.Machine

@[simp] theorem Memory.read_nil (a : Nat) : Memory.read [] a = 0 := rfl

theorem Memory.read_cons (b : Nat) (w : Byte) (rest : Memory) (a : Nat) :
    Memory.read ((b, w) :: rest) a = if b = a then w else Memory.read rest a := rfl

/-- Below its lower bound a memory in canonical form reads as zero. -/
theorem Memory.read_of_lt {lo : Nat} {m : Memory} (h : m.wfFrom lo = true) {a : Nat} (ha : a < lo) : m.read a = 0 := by
  induction m generalizing lo with
  | nil => rfl
  | cons c rest ih =>
    obtain ⟨b, w⟩ := c
    simp only [Memory.wfFrom, Bool.and_eq_true, decide_eq_true_eq] at h
    rw [Memory.read_cons, if_neg (by omega), ih h.2 (by omega)]

theorem Memory.wfFrom_mono {lo lo' : Nat} {m : Memory} (h : m.wfFrom lo' = true) (hl : lo ≤ lo') :
    m.wfFrom lo = true := by
  cases m with
  | nil => rfl
  | cons c rest =>
    obtain ⟨b, w⟩ := c
    simp only [Memory.wfFrom, Bool.and_eq_true, decide_eq_true_eq] at h ⊢
    exact ⟨⟨⟨by omega, h.1.1.2⟩, h.1.2⟩, h.2⟩

/-- A listed memory is canonical from its first address on. -/
theorem Memory.wfFrom_mono' {lo c : Nat} {w : Byte} {m : Memory} (h : Memory.wfFrom lo ((c, w) :: m) = true) :
    Memory.wfFrom c ((c, w) :: m) = true := by
  simp only [Memory.wfFrom, Bool.and_eq_true, decide_eq_true_eq] at h ⊢
  exact ⟨⟨⟨Nat.le_refl c, h.1.1.2⟩, h.1.2⟩, h.2⟩

theorem Memory.read_consCell (a b : Nat) (v : Byte) (m : Memory) (h : v = 0 → m.read a = 0) :
    (Memory.cons a v m).read b = if a = b then v else m.read b := by
  unfold Memory.cons
  split
  · split
    · subst b; rw [h ‹_›, ‹v = 0›]
    · rfl
  · rfl

/-- A byte reads what was last written to it, and a write leaves every other byte alone. -/
theorem Memory.read_write_from {lo : Nat} {m : Memory} (h : m.wfFrom lo = true) (a b : Nat) (v : Byte) :
    (m.write a v).read b = if a = b then v else m.read b := by
  induction m generalizing lo with
  | nil => exact Memory.read_consCell a b v [] fun _ => rfl
  | cons c rest ih =>
    obtain ⟨c, w⟩ := c
    have h' := h
    simp only [Memory.wfFrom, Bool.and_eq_true, decide_eq_true_eq] at h
    simp only [Memory.write]
    split
    · rename_i hlt
      refine Memory.read_consCell a b v _ fun _ => ?_
      exact Memory.read_of_lt (lo := c) (m := (c, w) :: rest) (Memory.wfFrom_mono' h') hlt
    · split
      · subst a
        rw [Memory.read_consCell c b v rest fun _ => Memory.read_of_lt h.2 (by omega), Memory.read_cons]
        split <;> rfl
      · rw [Memory.read_cons, ih h.2, Memory.read_cons]
        split
        · subst b; rw [if_neg ‹_›]
        · rfl

/-- In any memory at all, a write leaves every other byte alone. -/
theorem Memory.read_write_ne (m : Memory) {a b : Nat} (v : Byte) (hab : a ≠ b) : (m.write a v).read b = m.read b := by
  have hc : ∀ m' : Memory, (Memory.cons a v m').read b = m'.read b := by
    intro m'
    unfold Memory.cons
    split
    · rfl
    · rw [Memory.read_cons, if_neg hab]
  induction m with
  | nil => exact hc []
  | cons c rest ih =>
    obtain ⟨c, w⟩ := c
    simp only [Memory.write]
    split
    · exact hc _
    · split
      · subst a; rw [hc, Memory.read_cons, if_neg hab]
      · rw [Memory.read_cons, ih, Memory.read_cons]

/-- In any memory at all, a run of writes leaves every byte outside the run alone. -/
theorem Memory.read_writeBytes_ne (m : Memory) {a b : Nat} (l : List Byte) (hb : ∀ k < l.length, b ≠ a + k) :
    (m.writeBytes a l).read b = m.read b := by
  induction l generalizing m a with
  | nil => rfl
  | cons v rest ih =>
    rw [Memory.writeBytes, ih (m.write a v) fun k hk => by
      have := hb (k + 1) (by simp only [List.length_cons]; omega); omega]
    exact Memory.read_write_ne m v fun h => hb 0 (by simp) (by omega)

theorem Memory.wfFrom_cons {lo a : Nat} {v : Byte} {m : Memory} (h : m.wfFrom (a + 1) = true) (hlo : lo ≤ a)
    (ha : a < memSize) : (Memory.cons a v m).wfFrom lo = true := by
  unfold Memory.cons
  split
  · exact Memory.wfFrom_mono h (by omega)
  · simp only [Memory.wfFrom, Bool.and_eq_true, decide_eq_true_eq]
    exact ⟨⟨⟨hlo, ha⟩, ‹_›⟩, h⟩

/-- A write inside the address space keeps the canonical form. -/
theorem Memory.wfFrom_write {lo : Nat} {m : Memory} (h : m.wfFrom lo = true) {a : Nat} (ha : a < memSize) (hlo : lo ≤ a)
    (v : Byte) : (m.write a v).wfFrom lo = true := by
  induction m generalizing lo with
  | nil => exact Memory.wfFrom_cons (m := []) rfl hlo ha
  | cons c rest ih =>
    obtain ⟨c, w⟩ := c
    have h' := h
    simp only [Memory.wfFrom, Bool.and_eq_true, decide_eq_true_eq] at h
    simp only [Memory.write]
    split
    · refine Memory.wfFrom_cons ?_ hlo ha
      simp only [Memory.wfFrom, Bool.and_eq_true, decide_eq_true_eq]
      exact ⟨⟨⟨by omega, h.1.1.2⟩, h.1.2⟩, h.2⟩
    · split
      · subst a; exact Memory.wfFrom_cons h.2 hlo ha
      · simp only [Memory.wfFrom, Bool.and_eq_true, decide_eq_true_eq]
        exact ⟨h.1, ih h.2 (by omega)⟩

/-- The canonical form is kept by a write (20_memory R60). -/
theorem Memory.wf_write {m : Memory} (h : m.wf = true) {a : Nat} (ha : a < memSize) (v : Byte) :
    (m.write a v).wf = true := Memory.wfFrom_write h ha (by omega) v

/-- Read after write. -/
theorem Memory.read_write {m : Memory} (h : m.wf = true) (a b : Nat) (v : Byte) :
    (m.write a v).read b = if a = b then v else m.read b := Memory.read_write_from h a b v

/-- A run of bytes inside the address space keeps the canonical form. -/
theorem Memory.wf_writeBytes {m : Memory} (h : m.wf = true) {a : Nat} (l : List Byte) (ha : a + l.length ≤ memSize) :
    (m.writeBytes a l).wf = true := by
  induction l generalizing m a with
  | nil => exact h
  | cons v rest ih =>
    simp only [List.length_cons] at ha
    exact ih (Memory.wf_write h (by omega) v) (by omega)

/-- What a byte reads after a run of bytes was written inside the address space. -/
theorem Memory.read_writeBytes {m : Memory} (h : m.wf = true) {a : Nat} (l : List Byte) (ha : a + l.length ≤ memSize)
    (b : Nat) :
    (m.writeBytes a l).read b = if hb : a ≤ b ∧ b - a < l.length then l[b - a]'hb.2 else m.read b := by
  induction l generalizing m a with
  | nil => simp [Memory.writeBytes]
  | cons v rest ih =>
    simp only [List.length_cons] at ha
    rw [Memory.writeBytes, ih (Memory.wf_write h (by omega) v) (by omega), Memory.read_write h]
    by_cases hab : a = b
    · subst hab; simp
    · by_cases hb : a + 1 ≤ b ∧ b - (a + 1) < rest.length
      · rw [dif_pos hb, dif_pos (by simp only [List.length_cons]; omega)]
        have : b - a = (b - (a + 1)) + 1 := by omega
        simp [this]
      · rw [dif_neg hb, dif_neg (by simp only [List.length_cons]; omega), if_neg hab]

@[simp] theorem Memory.length_readBytes (m : Memory) (a n : Nat) : (m.readBytes a n).length = n := by
  induction n generalizing a with
  | zero => rfl
  | succ n ih => simp [Memory.readBytes, ih]

/-- A run of bytes read. -/
theorem Memory.getElem_readBytes (m : Memory) (a n k : Nat) (h : k < (m.readBytes a n).length) :
    (m.readBytes a n)[k] = m.read (a + k) := by
  induction n generalizing a k with
  | zero => simp at h
  | succ n ih =>
    cases k with
    | zero => rfl
    | succ k =>
      simp only [Memory.readBytes, List.getElem_cons_succ]
      rw [ih]
      congr 1
      omega

/-- Equal bytes make equal memories, in canonical form. -/
theorem Memory.ext_from {lo : Nat} {m m' : Memory} (h : m.wfFrom lo = true) (h' : m'.wfFrom lo = true)
    (heq : ∀ a, m.read a = m'.read a) : m = m' := by
  induction m generalizing lo m' with
  | nil =>
    cases m' with
    | nil => rfl
    | cons c rest =>
      obtain ⟨b, w⟩ := c
      have := heq b
      simp_all [Memory.wfFrom, Memory.read_cons]
  | cons c rest ih =>
    obtain ⟨b, w⟩ := c
    have hw := h
    simp only [Memory.wfFrom, Bool.and_eq_true, decide_eq_true_eq] at h
    cases m' with
    | nil => have := heq b; simp_all [Memory.read_cons]
    | cons c' rest' =>
      obtain ⟨b', w'⟩ := c'
      have hw' := h'
      simp only [Memory.wfFrom, Bool.and_eq_true, decide_eq_true_eq] at h'
      have hb : b = b' := by
        rcases Nat.lt_trichotomy b b' with hlt | heq' | hlt
        · have h1 := heq b
          rw [Memory.read_cons, if_pos rfl, Memory.read_cons, if_neg (by omega), Memory.read_of_lt h'.2 (by omega)] at h1
          exact absurd h1 h.1.2
        · exact heq'
        · have h1 := heq b'
          rw [Memory.read_cons, if_neg (by omega), Memory.read_of_lt h.2 (by omega), Memory.read_cons, if_pos rfl] at h1
          exact absurd h1.symm h'.1.2
      subst hb
      have hv : w = w' := by have := heq b; simpa [Memory.read_cons] using this
      subst hv
      congr 1
      refine ih h.2 h'.2 fun a => ?_
      by_cases ha : b = a
      · subst ha; rw [Memory.read_of_lt h.2 (by omega), Memory.read_of_lt h'.2 (by omega)]
      · have := heq a; simpa [Memory.read_cons, ha] using this

/-- Equal bytes make equal memories, in canonical form. -/
theorem Memory.ext {m m' : Memory} (h : m.wf = true) (h' : m'.wf = true) (heq : ∀ a, m.read a = m'.read a) : m = m' :=
  Memory.ext_from h h' heq

end Sys2Proof.Machine
end

