-- ==== Sys2Proof/Laws/Operations.lean ====
section
/-! SUPPORT. One lemma per shared operation that says everything it can do. -/

namespace Sys2Proof.Machine

/-! ### Instructions, faults, fetch -/

/-- A frame of one instruction always ends in a next state: its effect's, or the fault's. -/
theorem complete_cases (op : Word) (body : State → Except Raise State) (s : State) :
    (∃ t, body s.advance = .ok t ∧ complete op body s = .next t) ∨
    (∃ r, body s.advance = .error r ∧ complete op body s = .next (s.takeFault r (some op))) := by
  cases h : body s.advance with
  | ok t => exact .inl ⟨t, rfl, by simp [complete, h]⟩
  | error r => exact .inr ⟨r, rfl, by simp [complete, h]⟩

theorem complete_ok {op : Word} {body : State → Except Raise State} {s t : State} (h : body s.advance = .ok t) :
    complete op body s = .next t := by simp [complete, h]

theorem complete_error {op : Word} {body : State → Except Raise State} {s : State} {r : Raise}
    (h : body s.advance = .error r) : complete op body s = .next (s.takeFault r (some op)) := by simp [complete, h]

/-- Taking any fault but `Unimplemented` sets the latch and nothing else (60_exceptions R204, R205). -/
theorem State.takeFault_latch (s : State) {r : Raise} (op : Option Word) (h : r ≠ .unimplemented) :
    s.takeFault r op = s.setFault (some (r.record s.pc op)) := by
  simp [State.takeFault, h]

/-- Taking any fault sets the latch alone, or resets the core (R205, R206). -/
theorem State.takeFault_cases (s : State) (r : Raise) (op : Option Word) :
    (s.takeFault r op = s.setFault (some (r.record s.pc op)) ∧
      ¬ (r = .unimplemented ∧ s.params.unimplPolicy = .reset)) ∨
    (s.takeFault r op = s.resetOp ∧ r = .unimplemented ∧ s.params.unimplPolicy = .reset) := by
  unfold State.takeFault
  split
  · exact .inr ⟨rfl, ‹_›⟩
  · exact .inl ⟨rfl, ‹_›⟩

@[simp] theorem Raise.record_pc (r : Raise) (pc : Word) (op : Option Word) : (r.record pc op).pc = pc := by
  cases r <;> rfl

@[simp] theorem Raise.record_opcode (r : Raise) (pc : Word) (op : Option Word) : (r.record pc op).opcode = op := by
  cases r <;> rfl

/-- The range check gives its result exactly on runs inside memory (00_scope R25). -/
theorem checkRange_cases (addr n : Nat) (t : State) :
    (inRange addr n ∧ checkRange addr n t = .ok t) ∨
    (¬ inRange addr n ∧ checkRange addr n t = .error (.memoryRange (firstBad addr))) := by
  unfold checkRange
  split
  · exact .inl ⟨‹_›, rfl⟩
  · exact .inr ⟨‹_›, rfl⟩

/-- The fetch reads the word at `PC` exactly when it lies inside memory (30_encoding R80). -/
theorem fetch_cases (s : State) :
    (s.pc.toNat ≤ 0xFFE ∧ fetch s = .ok (wordOfBytes (s.mem.read s.pc.toNat) (s.mem.read (s.pc.toNat + 1)))) ∨
    (0xFFF ≤ s.pc.toNat ∧ fetch s = .error (.memoryRange (firstBad s.pc.toNat))) := by
  unfold fetch
  split
  · rename_i h
    simp only [inRange, memSize] at h
    exact .inl ⟨by omega, rfl⟩
  · rename_i h
    simp only [inRange, memSize] at h
    exact .inr ⟨by omega, rfl⟩

/-! ### The call stack -/

/-- A push on a stack that is not full (40_control_flow R103). -/
theorem State.pushPc_of_lt (s : State) (a : Word) (h : s.sp.val < 16) :
    s.pushPc a = .ok { s with stack := s.stack.set s.sp.val s.pc, sp := ⟨s.sp.val + 1, by omega⟩, pc := a } := by
  simp [State.pushPc, h]

theorem State.pushPc_of_full (s : State) (a : Word) (h : s.sp.val = 16) : s.pushPc a = .error .stackOverflow := by
  simp [State.pushPc, h]

/-- A pop off a stack that is not empty (R101). -/
theorem State.popPc_of_pos (s : State) (h : 0 < s.sp.val) :
    s.popPc = .ok { s with pc := s.stack[s.sp.val - 1]'(by omega), sp := ⟨s.sp.val - 1, by omega⟩ } := by
  simp [State.popPc, h]

theorem State.popPc_of_zero (s : State) (h : s.sp.val = 0) : s.popPc = .error .stackUnderflow := by
  simp [State.popPc, h]

/-! ### Register runs -/

/-- Registers loaded from a list: each takes its own byte, the others and everything else are unchanged. -/
theorem State.loadRegsFrom_eq (s : State) (j : Nat) (l : List Byte) (hj : j + l.length ≤ 16) :
    ∃ v, s.loadRegsFrom j l = { s with v := v } ∧
      ∀ q : Reg, v[q] = if h : j ≤ q.val ∧ q.val - j < l.length then l[q.val - j]'h.2 else s.v[q] := by
  induction l generalizing s j with
  | nil => exact ⟨s.v, rfl, fun q => by simp⟩
  | cons b rest ih =>
    simp only [List.length_cons] at hj
    have hj' : j < 16 := by omega
    obtain ⟨v, hv, hq⟩ := ih (s.setReg ⟨j, hj'⟩ b) (j + 1) (by omega)
    refine ⟨v, by rw [State.loadRegsFrom, dif_pos hj', hv]; rfl, fun q => ?_⟩
    rw [hq]
    by_cases h1 : j + 1 ≤ q.val ∧ q.val - (j + 1) < rest.length
    · rw [dif_pos h1, dif_pos (by simp only [List.length_cons]; omega)]
      have : q.val - j = (q.val - (j + 1)) + 1 := by omega
      simp [this]
    · rw [dif_neg h1]
      by_cases h2 : q.val = j
      · rw [dif_pos (by simp only [List.length_cons]; omega)]
        simp [h2]
      · rw [dif_neg (by simp only [List.length_cons]; omega)]
        simp [State.setReg_v, Ne.symm h2]

@[simp] theorem State.length_regsUpTo (s : State) (x : Reg) : (s.regsUpTo x).length = x.val + 1 := by
  simp [State.regsUpTo]

/-- The k-th value stored by Fx55 is `Vk` (42_index_memory R145). -/
theorem State.getElem_regsUpTo (s : State) (x : Reg) (k : Nat) (h : k < (s.regsUpTo x).length) :
    (s.regsUpTo x)[k] = s.reg ⟨k, by simp only [State.length_regsUpTo] at h; omega⟩ := by
  simp [State.regsUpTo, State.reg]

@[simp] theorem length_bcdDigits (b : Byte) : (bcdDigits b).length = 3 := rfl

@[simp] theorem length_indexRun (s : State) (n : Nat) : (indexRun s n).length = n := by simp [indexRun]

/-! ### Keys -/

/-- No lowest key exactly when the mask is 0 (44_keys_timers R184). -/
theorem lowestKey_eq_none (kbd : Word) : lowestKey kbd = none ↔ kbd = 0 := by
  constructor
  · intro h
    apply BitVec.eq_of_getLsbD_eq
    intro i hi
    have := List.find?_eq_none.1 h ⟨i, hi⟩ (by
      have : ∀ q : Reg, q ∈ keyCodes := by decide
      exact this _)
    simpa [keyBit] using this
  · rintro rfl
    decide

/-- The lowest key that is down, and no lower one is. -/
theorem lowestKey_eq_some {kbd : Word} {k : Reg} (h : lowestKey kbd = some k) :
    keyBit kbd k = true ∧ ∀ j < k.val, keyBit kbd j = false := by
  obtain ⟨hk, l1, l2, hl, hbefore⟩ := List.find?_eq_some_iff_append.1 h
  refine ⟨hk, fun j hj => ?_⟩
  have hmem : (⟨j, by omega⟩ : Reg) ∈ l1 := by
    have hsorted : List.Pairwise (· < ·) keyCodes := by decide
    have hall : ∀ q : Reg, q ∈ keyCodes := by decide
    have := hall ⟨j, by omega⟩
    rw [hl] at this hsorted
    rcases List.mem_append.1 this with h1 | h1
    · exact h1
    · exfalso
      rcases List.mem_cons.1 h1 with h2 | h2
      · have := congrArg Fin.val h2
        simp only at this
        omega
      · have h3 := (List.pairwise_cons.1 (List.pairwise_append.1 hsorted).2.1).1 _ h2
        have h4 : k.val < j := h3
        omega
  simpa using hbefore _ hmem

/-! ### The blit -/

/-- A canvas property that a hit on the screen keeps is kept by a row. -/
theorem Canvas.drawCols_keeps {P : Canvas → Prop} {height x0 y0 row : Nat} (hh : 1 ≤ height)
    (hit : ∀ c p, p.1 < width → p.2 < height → P c → P (c.hit p)) (b : Byte) (cols : List Nat) {c : Canvas} (hc : P c) :
    P (Canvas.drawCols height x0 y0 row b c cols) := by
  induction cols generalizing c with
  | nil => exact hc
  | cons col cols ih =>
    rw [Canvas.drawCols]
    apply ih
    split
    · exact hit c _ (Nat.mod_lt _ (by decide)) (Nat.mod_lt _ hh) hc
    · exact hc

/-- A canvas property that a hit on the screen keeps is kept by a blit. -/
theorem Canvas.drawRows_keeps {P : Canvas → Prop} {height x0 y0 : Nat} (hh : 1 ≤ height)
    (hit : ∀ c p, p.1 < width → p.2 < height → P c → P (c.hit p)) (row : Nat) (sprite : List Byte) {c : Canvas}
    (hc : P c) : P (Canvas.drawRows height x0 y0 c row sprite) := by
  induction sprite generalizing c row with
  | nil => exact hc
  | cons b rest ih => exact ih (row + 1) (Canvas.drawCols_keeps hh hit b _ hc)

/-- A blit keeps the canonical form of the framebuffer. -/
theorem wf_blit {height : Nat} (hh : 1 ≤ height) {f : Framebuffer} (hf : f.wf height = true) (x0 y0 : Nat)
    (sprite : List Byte) : (blit height x0 y0 f sprite).1.wf height = true :=
  Canvas.drawRows_keeps (P := fun c => c.1.wf height = true) hh
    (fun _ _ hx hy hc => Framebuffer.wf_toggle hc hx hy) 0 sprite hf

end Sys2Proof.Machine
end

