-- ==== Sys2Proof/Laws/Exec.lean ====
section
/-! SUPPORT. What each instruction that never raises does, as one equation; that every instruction ends in a next
state; and the cases of a step. -/

namespace Sys2Proof.Machine

section
variable (s : State) (x y : Reg) (kk : Byte) (nnn : Addr12)

theorem exec_cls : exec .cls s = .next (s.advance.setFb []) := rfl
theorem exec_jp : exec (.jp nnn) s = .next (s.advance.setPc (addrWord nnn)) := rfl
theorem exec_seImm : exec (.seImm x kk) s = .next (s.advance.skipIf (s.reg x == kk)) := rfl
theorem exec_sneImm : exec (.sneImm x kk) s = .next (s.advance.skipIf (s.reg x != kk)) := rfl
theorem exec_seReg : exec (.seReg x y) s = .next (s.advance.skipIf (s.reg x == s.reg y)) := rfl
theorem exec_sneReg : exec (.sneReg x y) s = .next (s.advance.skipIf (s.reg x != s.reg y)) := rfl
theorem exec_ldImm : exec (.ldImm x kk) s = .next (s.advance.setReg x kk) := rfl
theorem exec_addImm : exec (.addImm x kk) s = .next (s.advance.setReg x (s.reg x + kk)) := rfl
theorem exec_ldReg : exec (.ldReg x y) s = .next (s.advance.setReg x (s.reg y)) := rfl
theorem exec_orReg : exec (.orReg x y) s = .next (s.advance.setReg x (s.reg x ||| s.reg y)) := rfl
theorem exec_andReg : exec (.andReg x y) s = .next (s.advance.setReg x (s.reg x &&& s.reg y)) := rfl
theorem exec_xorReg : exec (.xorReg x y) s = .next (s.advance.setReg x (s.reg x ^^^ s.reg y)) := rfl
theorem exec_addReg : exec (.addReg x y) s =
    .next (s.advance.setRegFlag x (s.reg x + s.reg y) (carryFlag (s.reg x) (s.reg y))) := rfl
theorem exec_sub : exec (.sub x y) s =
    .next (s.advance.setRegFlag x (s.reg x - s.reg y) (noBorrowFlag (s.reg x) (s.reg y))) := rfl
theorem exec_shr : exec (.shr x y) s = .next (s.advance.setRegFlag x (s.reg x >>> 1) (shrFlag (s.reg x))) := rfl
theorem exec_subn : exec (.subn x y) s =
    .next (s.advance.setRegFlag x (s.reg y - s.reg x) (noBorrowFlag (s.reg y) (s.reg x))) := rfl
theorem exec_shl : exec (.shl x y) s = .next (s.advance.setRegFlag x (s.reg x <<< 1) (shlFlag (s.reg x))) := rfl
theorem exec_rnd : exec (.rnd x kk) s = .next (loadRandom (Config.randomByte s.draws) x kk s.advance) := rfl
theorem exec_ldI : exec (.ldI nnn) s = .next (s.advance.setI (addrWord nnn)) := rfl
theorem exec_addIVx : exec (.addIVx x) s = .next (s.advance.setI (indexSum s x)) := rfl
theorem exec_ldFVx : exec (.ldFVx x) s = .next (s.advance.setI (glyphAddr (s.reg x))) := rfl
theorem exec_ldVxDt : exec (.ldVxDt x) s = .next (s.advance.setReg x s.dt) := rfl
theorem exec_ldDtVx : exec (.ldDtVx x) s = .next (s.advance.setDt (s.reg x)) := rfl
theorem exec_ldStVx : exec (.ldStVx x) s = .next (s.advance.setSt (s.reg x)) := rfl

/-! The instructions that may raise, and the key wait, as the frame of their effect. -/

theorem exec_ret : exec .ret s = complete (encode .ret) (fun u => u.popPc) s := rfl
theorem exec_call : exec (.call nnn) s = complete (encode (.call nnn)) (fun u => u.pushPc (addrWord nnn)) s := rfl
theorem exec_jpV0 : exec (.jpV0 nnn) s = complete (encode (.jpV0 nnn))
    (fun u =>
      if v0Target u nnn < memSize then .ok (u.setPc (BitVec.ofNat 16 (v0Target u nnn)))
      else .error (.memoryRange (v0Target u nnn))) s := rfl
theorem exec_ldBVx : exec (.ldBVx x) s =
    complete (encode (.ldBVx x)) (fun u => storeAtIndex u (bcdDigits (u.reg x))) s := rfl
theorem exec_ldMemVx : exec (.ldMemVx x) s =
    complete (encode (.ldMemVx x)) (fun u => storeAtIndex u (u.regsUpTo x)) s := rfl
theorem exec_ldVxMem : exec (.ldVxMem x) s = complete (encode (.ldVxMem x))
    (fun u => checkRange (indexAddr u 0) (x + 1) (u.loadRegsFrom 0 (indexRun u (x + 1)))) s := rfl
theorem exec_drw (n : Fin 16) : exec (.drw x y n) s = complete (encode (.drw x y n))
    (fun u => checkRange (indexAddr u 0) n (drawSprite u (u.reg x).toNat (u.reg y).toNat (indexRun u n))) s := rfl
theorem exec_skp : exec (.skp x) s = complete (encode (.skp x)) (fun u => skipOnKey u x true) s := rfl
theorem exec_sknp : exec (.sknp x) s = complete (encode (.sknp x)) (fun u => skipOnKey u x false) s := rfl

/-- The key wait: back to the instruction with no key down, else the lowest key's number (44_keys_timers R184). -/
theorem exec_ldVxK_none (h : lowestKey s.kbd = none) : exec (.ldVxK x) s = .next s.advance.retreat :=
  complete_ok (body := fun u => match lowestKey u.kbd with
    | none => .ok u.retreat
    | some k => .ok (u.setReg x (keyValue k))) (by simp [h])

theorem exec_ldVxK_some {k : Reg} (h : lowestKey s.kbd = some k) :
    exec (.ldVxK x) s = .next (s.advance.setReg x (keyValue k)) :=
  complete_ok (body := fun u => match lowestKey u.kbd with
    | none => .ok u.retreat
    | some k => .ok (u.setReg x (keyValue k))) (by simp [h])

end

/-- Every instruction is the frame of some effect. -/
theorem exec_complete (i : Instr) (s : State) : ∃ body, exec i s = complete (encode i) body s := by
  cases i <;> (
    simp only [exec, execCls, execRet, execJp, execCall, execSeImm, execSneImm, execSeReg, execLdImm, execAddImm,
      execLdReg, execOrReg, execAndReg, execXorReg, execAddReg, execSub, execShr, execSubn, execShl, execSneReg,
      execLdI, execJpV0, execRnd, execDrw, execSkp, execSknp, execLdVxDt, execLdVxK, execLdDtVx, execLdStVx,
      execAddIVx, execLdFVx, execLdBVx, execLdMemVx, execLdVxMem]
    exact ⟨_, rfl⟩)

/-- Every instruction ends in a next state: its own effect's, or the one that has taken its fault. -/
theorem exec_next (i : Instr) (s : State) : ∃ t, exec i s = .next t := by
  obtain ⟨body, h⟩ := exec_complete i s
  rcases complete_cases (encode i) body s with ⟨t, -, ht⟩ | ⟨r, -, hr⟩
  · exact ⟨t, h.trans ht⟩
  · exact ⟨_, h.trans hr⟩

/-- What a cycle around the running of an instruction can do (30_encoding R91, 60_exceptions R207). -/
theorem cycle_cases (run : Instr → State → Host.Outcome State Fault Refusal) (s : State) :
    (∃ r, s.fault = some r ∧ cycle run s = .fault (.halted r)) ∨
    (s.fault = none ∧ 0xFFF ≤ s.pc.toNat ∧
      cycle run s = .next (s.setFault (some ((Raise.memoryRange (firstBad s.pc.toNat)).record s.pc none)))) ∨
    (∃ op, s.fault = none ∧ s.pc.toNat ≤ 0xFFE ∧ fetch s = .ok op ∧ decode op = none ∧
      cycle run s = .next (s.takeFault .unimplemented (some op))) ∨
    (∃ op i, s.fault = none ∧ s.pc.toNat ≤ 0xFFE ∧ fetch s = .ok op ∧ decode op = some i ∧ cycle run s = run i s) := by
  cases hf : s.fault with
  | some r => exact .inl ⟨r, rfl, by simp [cycle, hf]⟩
  | none =>
    refine .inr ?_
    rcases fetch_cases s with ⟨hpc, h⟩ | ⟨hpc, h⟩
    · refine .inr ?_
      cases hd : decode (wordOfBytes (s.mem.read s.pc.toNat) (s.mem.read (s.pc.toNat + 1))) with
      | none => exact .inl ⟨_, rfl, hpc, h, hd, by simp [cycle, hf, h, hd]⟩
      | some i => exact .inr ⟨_, i, rfl, hpc, h, hd, by simp [cycle, hf, h, hd]⟩
    · refine .inl ⟨rfl, hpc, ?_⟩
      simp only [cycle, hf, h]
      rw [State.takeFault_latch _ _ (by simp)]

/-- What a step can do. -/
theorem step_cases (s : State) :
    (∃ r, s.fault = some r ∧ step s = .fault (.halted r)) ∨
    (s.fault = none ∧ 0xFFF ≤ s.pc.toNat ∧
      step s = .next (s.setFault (some ((Raise.memoryRange (firstBad s.pc.toNat)).record s.pc none)))) ∨
    (∃ op, s.fault = none ∧ s.pc.toNat ≤ 0xFFE ∧ fetch s = .ok op ∧ decode op = none ∧
      step s = .next (s.takeFault .unimplemented (some op))) ∨
    (∃ op i, s.fault = none ∧ s.pc.toNat ≤ 0xFFE ∧ fetch s = .ok op ∧ decode op = some i ∧ step s = exec i s) :=
  cycle_cases exec s

/-! ### The draw as an argument -/

theorem execWith_rnd (r : Byte) (x : Reg) (kk : Byte) (s : State) :
    execWith r (.rnd x kk) s = .next (loadRandom r x kk s.advance) := rfl

/-- With the draw of its state an instruction given its draw is that instruction. -/
theorem execWith_draw (i : Instr) (s : State) : execWith (Config.randomByte s.draws) i s = exec i s := by
  cases i <;> rfl

/-- Every instruction but RND is the same whatever the draw. -/
theorem execWith_of_ne (r : Byte) {i : Instr} (s : State) (h : ∀ x kk, i ≠ .rnd x kk) : execWith r i s = exec i s := by
  cases i <;> first | rfl | exact absurd rfl (h _ _)

/-- Every instruction given a draw ends in a next state. -/
theorem execWith_next (r : Byte) (i : Instr) (s : State) : ∃ t, execWith r i s = .next t := by
  by_cases h : ∃ x kk, i = .rnd x kk
  · obtain ⟨x, kk, rfl⟩ := h
    exact ⟨_, rfl⟩
  · exact execWith_of_ne r s (fun x kk e => h ⟨x, kk, e⟩) ▸ exec_next i s

end Sys2Proof.Machine
end

