-- ==== Sys2Proof/Laws/PerInstr.lean ====
section
/-! SUPPORT. Per instruction: the word of an instruction matches the row of the opcode map (30_encoding R84) that has
its mnemonic, and its operands fit their fields (R82). -/

namespace Sys2Proof.Laws.EncodeMatchesRow

/-- The instruction's word matches the row of its mnemonic, and the instruction is well-formed. -/
def Statement (i : Instr) : Prop :=
  (∃ r ∈ opcodeMap, r.mnemonic = i.mnemonic ∧ r.matches (encode i) = true) ∧ i.wf = true

/-! ### What the masks keep -/

theorem encAddr_group (g : Nibble) (a : Addr12) : encAddr g a &&& 0xF000#16 = encAddr g 0 := by
  apply BitVec.eq_of_getLsbD_eq
  intro i h
  simp only [BitVec.getLsbD_and, getLsbD_encAddr]
  interval_cases i <;> simp

theorem encByte_group (g : Nibble) (x : Reg) (kk : Byte) : encByte g x kk &&& 0xF000#16 = encAddr g 0 := by
  apply BitVec.eq_of_getLsbD_eq
  intro i h
  simp only [BitVec.getLsbD_and, getLsbD_encAddr, getLsbD_encByte]
  interval_cases i <;> simp

theorem encByte_literal (g : Nibble) (x : Reg) (kk : Byte) : encByte g x kk &&& 0xF0FF#16 = encByte g 0 kk := by
  apply BitVec.eq_of_getLsbD_eq
  intro i h
  simp only [BitVec.getLsbD_and, getLsbD_encByte, nibbleOfReg]
  interval_cases i <;> simp

theorem encRegs_literal (g : Nibble) (x y : Reg) (n : Nibble) : encRegs g x y n &&& 0xF00F#16 = encRegs g 0 0 n := by
  apply BitVec.eq_of_getLsbD_eq
  intro i h
  simp only [BitVec.getLsbD_and, encRegs, getLsbD_ofNibbles, nibbleOfReg]
  interval_cases i <;> simp

theorem encRegs_group (g : Nibble) (x y : Reg) (n : Nibble) : encRegs g x y n &&& 0xF000#16 = encAddr g 0 := by
  apply BitVec.eq_of_getLsbD_eq
  intro i h
  simp only [BitVec.getLsbD_and, encRegs, getLsbD_ofNibbles, getLsbD_encAddr]
  interval_cases i <;> simp

/-- An operand of a bit vector's or a register index's width fits. -/
theorem fits_bits {w : Nat} (b : BitVec w) : OperandField.fits ⟨b.toNat, w⟩ = true := by
  simp [OperandField.fits, b.isLt]

theorem fits_reg (x : Reg) : OperandField.fits ⟨x, 4⟩ = true := by
  simp [OperandField.fits]

/-- Every instruction is well-formed: its operands carry their width in their type (10_state R30). -/
theorem wf_of_types (i : Instr) : i.wf = true := by
  cases i <;> simp [Instr.wf, Instr.operands, fits_bits, fits_reg]

/-- The row that shows a statement. -/
theorem of_row {i : Instr} (r : OpcodeRow) (hr : r ∈ opcodeMap) (hm : r.mnemonic = i.mnemonic)
    (he : encode i &&& r.mask = r.pattern) : Statement i :=
  ⟨⟨r, hr, hm, by simp [OpcodeRow.matches, he]⟩, wf_of_types i⟩

/-! ### One lemma per instruction -/

theorem cls : Statement .cls :=
  of_row ⟨"CLS", 0xFFFF, 0x00E0⟩ (by decide) rfl (by decide)

theorem ret : Statement .ret :=
  of_row ⟨"RET", 0xFFFF, 0x00EE⟩ (by decide) rfl (by decide)

theorem jp (nnn : Addr12) : Statement (.jp nnn) :=
  of_row ⟨"JP", 0xF000, 0x1000⟩ (by decide) rfl ((encAddr_group _ _).trans (by decide))

theorem call (nnn : Addr12) : Statement (.call nnn) :=
  of_row ⟨"CALL", 0xF000, 0x2000⟩ (by decide) rfl ((encAddr_group _ _).trans (by decide))

theorem seImm (x : Reg) (kk : Byte) : Statement (.seImm x kk) :=
  of_row ⟨"SE_IMM", 0xF000, 0x3000⟩ (by decide) rfl ((encByte_group _ _ _).trans (by decide))

theorem sneImm (x : Reg) (kk : Byte) : Statement (.sneImm x kk) :=
  of_row ⟨"SNE_IMM", 0xF000, 0x4000⟩ (by decide) rfl ((encByte_group _ _ _).trans (by decide))

theorem seReg (x y : Reg) : Statement (.seReg x y) :=
  of_row ⟨"SE_REG", 0xF00F, 0x5000⟩ (by decide) rfl ((encRegs_literal _ _ _ _).trans (by decide))

theorem ldImm (x : Reg) (kk : Byte) : Statement (.ldImm x kk) :=
  of_row ⟨"LD_IMM", 0xF000, 0x6000⟩ (by decide) rfl ((encByte_group _ _ _).trans (by decide))

theorem addImm (x : Reg) (kk : Byte) : Statement (.addImm x kk) :=
  of_row ⟨"ADD_IMM", 0xF000, 0x7000⟩ (by decide) rfl ((encByte_group _ _ _).trans (by decide))

theorem ldReg (x y : Reg) : Statement (.ldReg x y) :=
  of_row ⟨"LD_REG", 0xF00F, 0x8000⟩ (by decide) rfl ((encRegs_literal _ _ _ _).trans (by decide))

theorem orReg (x y : Reg) : Statement (.orReg x y) :=
  of_row ⟨"OR", 0xF00F, 0x8001⟩ (by decide) rfl ((encRegs_literal _ _ _ _).trans (by decide))

theorem andReg (x y : Reg) : Statement (.andReg x y) :=
  of_row ⟨"AND", 0xF00F, 0x8002⟩ (by decide) rfl ((encRegs_literal _ _ _ _).trans (by decide))

theorem xorReg (x y : Reg) : Statement (.xorReg x y) :=
  of_row ⟨"XOR", 0xF00F, 0x8003⟩ (by decide) rfl ((encRegs_literal _ _ _ _).trans (by decide))

theorem addReg (x y : Reg) : Statement (.addReg x y) :=
  of_row ⟨"ADD_REG", 0xF00F, 0x8004⟩ (by decide) rfl ((encRegs_literal _ _ _ _).trans (by decide))

theorem sub (x y : Reg) : Statement (.sub x y) :=
  of_row ⟨"SUB", 0xF00F, 0x8005⟩ (by decide) rfl ((encRegs_literal _ _ _ _).trans (by decide))

theorem shr (x y : Reg) : Statement (.shr x y) :=
  of_row ⟨"SHR", 0xF00F, 0x8006⟩ (by decide) rfl ((encRegs_literal _ _ _ _).trans (by decide))

theorem subn (x y : Reg) : Statement (.subn x y) :=
  of_row ⟨"SUBN", 0xF00F, 0x8007⟩ (by decide) rfl ((encRegs_literal _ _ _ _).trans (by decide))

theorem shl (x y : Reg) : Statement (.shl x y) :=
  of_row ⟨"SHL", 0xF00F, 0x800E⟩ (by decide) rfl ((encRegs_literal _ _ _ _).trans (by decide))

theorem sneReg (x y : Reg) : Statement (.sneReg x y) :=
  of_row ⟨"SNE_REG", 0xF00F, 0x9000⟩ (by decide) rfl ((encRegs_literal _ _ _ _).trans (by decide))

theorem ldI (nnn : Addr12) : Statement (.ldI nnn) :=
  of_row ⟨"LD_I", 0xF000, 0xA000⟩ (by decide) rfl ((encAddr_group _ _).trans (by decide))

theorem jpV0 (nnn : Addr12) : Statement (.jpV0 nnn) :=
  of_row ⟨"JP_V0", 0xF000, 0xB000⟩ (by decide) rfl ((encAddr_group _ _).trans (by decide))

theorem rnd (x : Reg) (kk : Byte) : Statement (.rnd x kk) :=
  of_row ⟨"RND", 0xF000, 0xC000⟩ (by decide) rfl ((encByte_group _ _ _).trans (by decide))

theorem drw (x y : Reg) (n : Fin 16) : Statement (.drw x y n) :=
  of_row ⟨"DRW", 0xF000, 0xD000⟩ (by decide) rfl ((encRegs_group _ _ _ _).trans (by decide))

theorem skp (x : Reg) : Statement (.skp x) :=
  of_row ⟨"SKP", 0xF0FF, 0xE09E⟩ (by decide) rfl ((encByte_literal _ _ _).trans (by decide))

theorem sknp (x : Reg) : Statement (.sknp x) :=
  of_row ⟨"SKNP", 0xF0FF, 0xE0A1⟩ (by decide) rfl ((encByte_literal _ _ _).trans (by decide))

theorem ldVxDt (x : Reg) : Statement (.ldVxDt x) :=
  of_row ⟨"LD_VX_DT", 0xF0FF, 0xF007⟩ (by decide) rfl ((encByte_literal _ _ _).trans (by decide))

theorem ldVxK (x : Reg) : Statement (.ldVxK x) :=
  of_row ⟨"LD_VX_K", 0xF0FF, 0xF00A⟩ (by decide) rfl ((encByte_literal _ _ _).trans (by decide))

theorem ldDtVx (x : Reg) : Statement (.ldDtVx x) :=
  of_row ⟨"LD_DT_VX", 0xF0FF, 0xF015⟩ (by decide) rfl ((encByte_literal _ _ _).trans (by decide))

theorem ldStVx (x : Reg) : Statement (.ldStVx x) :=
  of_row ⟨"LD_ST_VX", 0xF0FF, 0xF018⟩ (by decide) rfl ((encByte_literal _ _ _).trans (by decide))

theorem addIVx (x : Reg) : Statement (.addIVx x) :=
  of_row ⟨"ADD_I_VX", 0xF0FF, 0xF01E⟩ (by decide) rfl ((encByte_literal _ _ _).trans (by decide))

theorem ldFVx (x : Reg) : Statement (.ldFVx x) :=
  of_row ⟨"LD_F_VX", 0xF0FF, 0xF029⟩ (by decide) rfl ((encByte_literal _ _ _).trans (by decide))

theorem ldBVx (x : Reg) : Statement (.ldBVx x) :=
  of_row ⟨"LD_B_VX", 0xF0FF, 0xF033⟩ (by decide) rfl ((encByte_literal _ _ _).trans (by decide))

theorem ldMemVx (x : Reg) : Statement (.ldMemVx x) :=
  of_row ⟨"LD_MEM_VX", 0xF0FF, 0xF055⟩ (by decide) rfl ((encByte_literal _ _ _).trans (by decide))

theorem ldVxMem (x : Reg) : Statement (.ldVxMem x) :=
  of_row ⟨"LD_VX_MEM", 0xF0FF, 0xF065⟩ (by decide) rfl ((encByte_literal _ _ _).trans (by decide))

end Sys2Proof.Laws.EncodeMatchesRow
end

