-- ==== Sys2Proof/Tests/Slice0.lean ====
section
/-! SUPPORT. Tests: the well-formedness smoke test, a word of every instruction written out from 30_encoding R84,
single steps whose results are those of 95_test_vectors, and a state that meets the hypotheses of each obligation, for
each of its clauses. -/

namespace Sys2Proof.Tests

open Sys2Proof Sys2Proof.Machine

/-! ## Well-formedness -/

theorem test_wf_refuses_register_index : OperandField.fits ⟨16, 4⟩ = false := by decide
theorem test_wf_refuses_byte_operand : OperandField.fits ⟨256, 8⟩ = false := by decide
theorem test_wf_refuses_address : OperandField.fits ⟨4096, 12⟩ = false := by decide
theorem test_wf_accepts_the_largest_operands :
    (OperandField.fits ⟨15, 4⟩ && OperandField.fits ⟨255, 8⟩ && OperandField.fits ⟨4095, 12⟩) = true := by decide

/-- 00_scope R12. -/
theorem test_wf_refuses_no_rows : Params.wf { Config.defaults with height := 0 } = false := by decide
/-- 00_scope R16. -/
theorem test_wf_refuses_no_clock : Params.wf { Config.defaults with tsHz := 0 } = false := by decide
/-- 00_scope R20. -/
theorem test_wf_refuses_one_colour : Params.wf { Config.defaults with onRgb := ⟨0, 0, 0⟩ } = false := by decide
theorem test_wf_accepts_the_defaults : Params.wf Config.defaults = true := by decide

/-- 20_memory R60: an address outside memory, a listed zero and a falling order are not canonical. -/
theorem test_wf_refuses_memories :
    Memory.wf [(0x1000, 1)] = false ∧ Memory.wf [(5, 0)] = false ∧ Memory.wf [(6, 1), (5, 1)] = false ∧
      Memory.wf State.reset.mem = true := by decide

/-- 10_state R41: a pixel off the screen and a repeated pixel are not canonical. -/
theorem test_wf_refuses_framebuffers :
    Framebuffer.wf 32 [(64, 0)] = false ∧ Framebuffer.wf 32 [(0, 32)] = false ∧
      Framebuffer.wf 32 [(1, 1), (1, 1)] = false ∧ Framebuffer.wf 32 State.reset.fb = true := by decide

/-! ## Decoding: one word of every instruction, from its pattern in 30_encoding R84 -/

theorem test_decode_control_flow :
    decode 0b0000000011101110 = some .ret ∧
    decode 0b0001001000110100 = some (.jp 0x234) ∧
    decode 0b0010101010111100 = some (.call 0xABC) ∧
    decode 0b0011001101000010 = some (.seImm 3 0x42) ∧
    decode 0b0100001101000010 = some (.sneImm 3 0x42) ∧
    decode 0b0101000100100000 = some (.seReg 1 2) ∧
    decode 0b1001000100100000 = some (.sneReg 1 2) ∧
    decode 0b1011001100000001 = some (.jpV0 0x301) := by decide

theorem test_decode_loads_and_arithmetic :
    decode 0b0110101000001100 = some (.ldImm 0xA 0x0C) ∧
    decode 0b0111111100000010 = some (.addImm 0xF 0x02) ∧
    decode 0b1000000111100000 = some (.ldReg 1 0xE) ∧
    decode 0b1000000111100001 = some (.orReg 1 0xE) ∧
    decode 0b1000000111100010 = some (.andReg 1 0xE) ∧
    decode 0b1000000111100011 = some (.xorReg 1 0xE) ∧
    decode 0b1000000111100100 = some (.addReg 1 0xE) ∧
    decode 0b1000000111100101 = some (.sub 1 0xE) ∧
    decode 0b1000000111100110 = some (.shr 1 0xE) ∧
    decode 0b1000000111100111 = some (.subn 1 0xE) ∧
    decode 0b1000000111101110 = some (.shl 1 0xE) ∧
    decode 0b1100001100001111 = some (.rnd 3 0x0F) := by decide

theorem test_decode_index_and_memory :
    decode 0b1010001011110001 = some (.ldI 0x2F1) ∧
    decode 0b1111010100011110 = some (.addIVx 5) ∧
    decode 0b1111011100101001 = some (.ldFVx 7) ∧
    decode 0b1111101000110011 = some (.ldBVx 0xA) ∧
    decode 0b1111001001010101 = some (.ldMemVx 2) ∧
    decode 0b1111001001100101 = some (.ldVxMem 2) := by decide

theorem test_decode_display :
    decode 0b0000000011100000 = some .cls ∧ decode 0b1101000100101111 = some (.drw 1 2 15) := by decide

theorem test_decode_keys_and_timers :
    decode 0b1110010010011110 = some (.skp 4) ∧
    decode 0b1110010010100001 = some (.sknp 4) ∧
    decode 0b1111001000000111 = some (.ldVxDt 2) ∧
    decode 0b1111001100001010 = some (.ldVxK 3) ∧
    decode 0b1111000100010101 = some (.ldDtVx 1) ∧
    decode 0b1111000100011000 = some (.ldStVx 1) := by decide

/-- 30_encoding R85 to R88, with the unimplemented words of 95_test_vectors. -/
theorem test_decode_refuses_unimplemented :
    decode 0x0000 = none ∧ decode 0x0123 = none ∧ decode 0x5121 = none ∧ decode 0x9128 = none ∧
    decode 0x8008 = none ∧ decode 0x800F = none ∧ decode 0xE4A2 = none ∧ decode 0xF100 = none := by decide

/-- 20_memory R62: the first byte is the high one; a lone byte is refused by name. -/
theorem test_decode_bytes :
    decodeBytes [0x12, 0x34, 0x56] = .ok (.jp 0x234, [0x56]) ∧
    decodeBytes [0x51, 0x21] = .error (.unimplemented 0x5121) ∧ decodeBytes [0x12] = .error .truncated := by decide

/-! ## Single steps (95_test_vectors) -/

/-- The state after reset with the machine's parameters changed. -/
def withParams (p : Params) : State := { State.reset with params := p }

/-- The step that fetches a word from a state gives a next state with a property. -/
def after (w : Nat) (s : State) (p : State → Bool) : Bool :=
  match step (s.withFetchWord 16 w) with
  | .next t => p t
  | .fault _ => false
  | .refused _ => false

/-- The state after reset with `V0` and `V1`, and VF. -/
def regs (v0 v1 vf : Byte) : State := ((State.reset.setReg 0 v0).setReg 1 v1).setReg VF vf

/-- The state after reset at a call depth. -/
def depth (n : Fin 17) : State := { State.reset with sp := n, stack := State.reset.stack.set 0 0x202 }

/-- The state after reset with `I` and bytes at it. -/
def indexed (i : Word) (bytes : List Byte) : State :=
  (State.reset.setI i).setMem (State.reset.mem.writeBytes i.toNat bytes)

theorem test_ret_pops : after 0x00EE (depth 1) (fun t => t.pc == 0x202 && t.sp == 0 && t.stack[0] == 0x202) = true := by
  decide
theorem test_ret_underflow :
    after 0x00EE State.reset
      (fun t => t.fault == some ⟨.stackUnderflow, 0x200, some 0x00EE, none, none⟩ && t.pc == 0x200) = true := by decide
theorem test_jp : after 0x1FFF State.reset (fun t => t.pc == 0xFFF && t.fault == none) = true := by decide
theorem test_call_pushes :
    after 0x2210 State.reset (fun t => t.pc == 0x210 && t.sp == 1 && t.stack[0] == 0x202) = true := by decide
theorem test_call_overflow :
    after 0x2210 (depth 16) (fun t => t.fault == some ⟨.stackOverflow, 0x200, some 0x2210, none, none⟩ && t.sp == 16) =
      true := by decide
theorem test_se_imm :
    after 0x3042 (regs 0x42 0 0) (·.pc == 0x204) = true ∧ after 0x3042 (regs 0x41 0 0) (·.pc == 0x202) = true := by
  decide
theorem test_sne_imm :
    after 0x4042 (regs 0x41 0 0) (·.pc == 0x204) = true ∧ after 0x4042 (regs 0x42 0 0) (·.pc == 0x202) = true := by
  decide
theorem test_se_reg :
    after 0x5010 (regs 7 7 0) (·.pc == 0x204) = true ∧ after 0x5010 (regs 7 8 0) (·.pc == 0x202) = true := by decide
theorem test_sne_reg :
    after 0x9010 (regs 7 8 0) (·.pc == 0x204) = true ∧ after 0x9110 (regs 7 8 0) (·.pc == 0x202) = true := by decide
theorem test_jp_v0_last_address : after 0xBF00 (regs 0xFF 0 0) (fun t => t.pc == 0xFFF && t.fault == none) = true := by
  decide
theorem test_jp_v0_beyond_memory :
    after 0xBFFF (regs 0xFF 0 0) (·.fault == some ⟨.memoryRange, 0x200, some 0xBFFF, some 0x10FE, none⟩) = true := by
  decide
theorem test_fetch_at_the_end :
    (match step (State.reset.setPc 0xFFF) with
      | .next t => decide (t.fault = some ⟨.memoryRange, 0xFFF, none, some 0x1000, none⟩ ∧ t.pc = 0xFFF)
      | _ => false) = true := by decide
theorem test_unimplemented_halts :
    after 0x5121 (regs 1 2 3)
      (fun t => t.fault == some ⟨.unimplemented, 0x200, some 0x5121, none, none⟩ && t.reg 1 == 2) = true := by decide
theorem test_unimplemented_resets :
    after 0x5121 { regs 1 2 3 with params := { Config.defaults with unimplPolicy := .reset } }
      (fun t => t.fault == none && t.reg 1 == 0 && t.mem == []) = true := by decide

theorem test_ld_imm : after 0x6A0C State.reset (fun t => t.reg 0xA == 0x0C && t.pc == 0x202) = true := by decide
theorem test_add_imm : after 0x7002 (regs 0xFF 0 0x55) (fun t => t.reg 0 == 0x01 && t.reg VF == 0x55) = true := by decide
theorem test_ld_reg : after 0x8010 (regs 0 0x33 0) (·.reg 0 == 0x33) = true := by decide
theorem test_or : after 0x8011 (regs 0xF0 0x0F 7) (fun t => t.reg 0 == 0xFF && t.reg VF == 7) = true := by decide
theorem test_and : after 0x8012 (regs 0xF0 0x3C 7) (fun t => t.reg 0 == 0x30 && t.reg VF == 7) = true := by decide
theorem test_xor : after 0x8013 (regs 0xF0 0x3C 7) (fun t => t.reg 0 == 0xCC && t.reg VF == 7) = true := by decide
theorem test_add_carry : after 0x8014 (regs 0xFF 1 0) (fun t => t.reg 0 == 0 && t.reg VF == 1) = true := by decide
theorem test_add_flag_operands :
    after 0x8F14 (regs 0 0xFF 2) (·.reg VF == 1) = true ∧
      after 0x80F4 (regs 0x10 0 5) (fun t => t.reg 0 == 0x15 && t.reg VF == 0) = true := by decide
theorem test_sub : after 0x8015 (regs 5 7 1) (fun t => t.reg 0 == 0xFE && t.reg VF == 0) = true := by decide
theorem test_sub_equal : after 0x8015 (regs 7 7 0) (fun t => t.reg 0 == 0 && t.reg VF == 1) = true := by decide
theorem test_shr : after 0x8016 (regs 5 0xFF 0) (fun t => t.reg 0 == 2 && t.reg VF == 1) = true := by decide
theorem test_shr_flag : after 0x8F06 (regs 0 0 3) (·.reg VF == 1) = true := by decide
theorem test_subn : after 0x8017 (regs 7 5 1) (fun t => t.reg 0 == 0xFE && t.reg VF == 0) = true := by decide
theorem test_subn_same : after 0x8007 (regs 0x42 0 0) (fun t => t.reg 0 == 0 && t.reg VF == 1) = true := by decide
theorem test_shl : after 0x801E (regs 0x81 0 0) (fun t => t.reg 0 == 2 && t.reg VF == 1) = true := by decide
theorem test_shl_flag : after 0x8F0E (regs 0 0 0x80) (·.reg VF == 1) = true := by decide
/-- With the draws of 95_test_vectors, the argument of the host's step. -/
theorem test_rnd : (hostOp (.step 0xA7) (State.reset.withFetchWord 16 0xC30F)).1.reg 3 = 0x07 := by decide
theorem test_rnd_whole_mask : (hostOp (.step 0x5C) (State.reset.withFetchWord 16 0xC3FF)).1.reg 3 = 0x5C := by decide

theorem test_ld_i : after 0xA2F0 State.reset (·.i == 0x2F0) = true := by decide
theorem test_add_i_wraps :
    after 0xF01E ((regs 1 0 0x77).setI 0xFFFF) (fun t => t.i == 0 && t.reg VF == 0x77) = true := by decide
theorem test_add_i_past_memory :
    after 0xF01E ((regs 1 0 0).setI 0xFFF) (fun t => t.i == 0x1000 && t.fault == none) = true := by decide
theorem test_ld_f : after 0xF029 (regs 0x0A 0 0) (·.i == 0x032) = true ∧
    after 0xF029 (regs 0xFF 0 0) (·.i == 0x4FB) = true := by decide
theorem test_bcd :
    after 0xF033 ((regs 0x9C 0 0).setI 0x300)
      (fun t => t.mem.readBytes 0x2FF 5 == [0, 1, 5, 6, 0] && t.i == 0x300) = true := by decide
theorem test_bcd_straddles :
    after 0xF033 ((regs 7 0 0).setI 0xFFE)
      (fun t => t.fault == some ⟨.memoryRange, 0x200, some 0xF033, some 0x1000, none⟩ &&
        t.mem.readBytes 0xFFE 2 == [0, 0]) = true := by decide
theorem test_store :
    after 0xF155 ((regs 1 2 3).setI 0x300) (fun t => t.mem.readBytes 0x300 3 == [1, 2, 0] && t.i == 0x300) = true := by
  decide
theorem test_load_keeps_higher :
    after 0xF265 ((indexed 0x300 [0, 0, 5, 7]).setReg 3 0x99)
      (fun t => t.reg 0 == 0 && t.reg 1 == 0 && t.reg 2 == 5 && t.reg 3 == 0x99) = true := by decide
theorem test_load_flag : after 0xFF65 (indexed 0x300 [1, 2, 3, 4, 5, 6, 7, 8, 9, 10, 11, 12, 13, 14, 15, 0xAB])
    (fun t => t.reg VF == 0xAB && t.reg 0 == 1) = true := by decide

theorem test_cls :
    after 0x00E0 ((State.reset.setFb [(0, 0), (63, 31)]).setReg VF 1) (fun t => t.fb == [] && t.reg VF == 1) = true := by
  decide
theorem test_drw_wraps_and_collides :
    after 0xD121 ((((indexed 0x300 [0xFF]).setReg 1 0x3C).setReg 2 5).setFb [(61, 5)])
      (fun t => t.fb == [(0, 5), (1, 5), (2, 5), (3, 5), (60, 5), (62, 5), (63, 5)] && t.reg VF == 1) = true := by decide
theorem test_drw_flag_origin :
    after 0xDFF1 ((indexed 0x300 [0x80]).setReg VF 3) (fun t => t.fb == [(3, 3)] && t.reg VF == 0) = true := by decide

theorem test_skp :
    after 0xE09E ((regs 7 0 0).setKbd 0x80) (·.pc == 0x204) = true ∧
      after 0xE09E ((regs 7 0 0).setKbd 0x7F) (·.pc == 0x202) = true := by decide
theorem test_skp_key_index :
    after 0xE09E ((regs 0x17 0 0).setKbd 0x80)
      (·.fault == some ⟨.keyIndex, 0x200, some 0xE09E, none, some 0x17⟩) = true := by decide
theorem test_sknp :
    after 0xE0A1 ((regs 7 0 0).setKbd 0) (·.pc == 0x204) = true ∧
      after 0xE0A1 ((regs 7 0 0).setKbd 0x80) (·.pc == 0x202) = true := by decide
theorem test_sknp_not_pressed :
    after 0xE0A1 { (regs 0x17 0 0).setKbd 0x80 with params := { Config.defaults with keyRangePolicy := .notPressed } }
      (·.pc == 0x204) = true := by decide
theorem test_ld_vx_dt : after 0xF207 (State.reset.setDt 0x3C) (·.reg 2 == 0x3C) = true := by decide
theorem test_key_wait : after 0xF30A (State.reset.setPc 0x208) (fun t => t.pc == 0x208 && t.reg 3 == 0) = true := by decide
theorem test_key_wait_lowest :
    after 0xF30A ((State.reset.setPc 0x208).setKbd 0x90) (fun t => t.pc == 0x20A && t.reg 3 == 4) = true := by decide
theorem test_ld_dt : after 0xF115 (regs 0 0x3C 0) (·.dt == 60) = true := by decide
theorem test_ld_st : after 0xF118 (regs 0 5 0) (·.st == 5) = true := by decide

/-- A state whose timer clock was started at 0. -/
def clocked (p : TimerAccounting) : State :=
  (((withParams { Config.defaults with timerAccounting := p }).setDt 10).setSt 1).setTimerClock (some 0) 0

/-- T2, T3 and T6 of 95_test_vectors. -/
theorem test_timer_drift_free :
    ((clocked .driftFree).timerUpdate 16).dt = 10 ∧ ((clocked .driftFree).timerUpdate 17).dt = 9 ∧
      ((clocked .driftFree).timerUpdate 17).st = 0 ∧ ((clocked .driftFree).timerUpdate 1000).dt = 0 := by decide
/-- T7 of 95_test_vectors. -/
theorem test_timer_anchor_now :
    ((clocked .anchorNow).timerUpdate 16).tmrEpoch = some 0 ∧ ((clocked .anchorNow).timerUpdate 17).tmrEpoch = some 17 ∧
      (((clocked .anchorNow).timerUpdate 17).timerUpdate 33).dt = 9 := by decide

/-! ## Witnesses: a state and operands that meet the hypotheses of each obligation -/

/-- The next state of an instruction. -/
def result (i : Instr) (s : State) : State :=
  match exec i s with
  | .next t => t
  | .fault _ => s
  | .refused _ => s

/-- A latched record. -/
def record : FaultRecord := ⟨.stackUnderflow, 0x200, some 0x00EE, none, none⟩

theorem witness_ResetZeroesEveryField : (hostOp .reset (regs 1 2 3)).1 ≠ regs 1 2 3 ∧
    ∃ s, (hostOp .reset (regs 1 2 3)).1 = (hostOp .reset s).1 := ⟨by decide, _, rfl⟩

theorem witness_FetchIsBigEndianAndChecked_inside : (State.reset.setPc 0xFFE).pc.toNat ≤ 0xFFE := by decide
theorem witness_FetchIsBigEndianAndChecked_outside :
    0xFFF ≤ (State.reset.setPc 0xFFF).pc.toNat ∧ (State.reset.setPc 0xFFF).fault = none := by decide

theorem witness_StepRunsDecodedInstruction :
    let s := (State.reset.setPc 0xFFE).withFetchWord 16 0x2210
    s.fault = none ∧ s.pc.toNat ≤ 0xFFE ∧
      decode (wordOfBytes (s.mem.read s.pc.toNat) (s.mem.read (s.pc.toNat + 1))) = some (.call 0x210) := by decide

theorem witness_UnimplementedWordFollowsPolicy_halt :
    let s := State.reset.withFetchWord 16 0x5121
    s.fault = none ∧ fetch s = .ok 0x5121 ∧ decode 0x5121 = none ∧ s.params.unimplPolicy = .halt := by decide
theorem witness_UnimplementedWordFollowsPolicy_reset :
    let s := (withParams { Config.defaults with unimplPolicy := .reset }).withFetchWord 16 0x5121
    s.fault = none ∧ fetch s = .ok 0x5121 ∧ decode 0x5121 = none ∧ s.params.unimplPolicy = .reset := by decide

theorem witness_HaltedStepIsInert : (State.reset.setFault (some record)).fault = some record ∧
    HostOp.observe ≠ .reset := by decide

theorem witness_FaultingStepIsPrecise_latch :
    stepReport 7 (State.reset.withFetchWord 16 0x00EE) = .raised record ∧
      ¬ (record.kind = .unimplemented ∧ (State.reset.withFetchWord 16 0x00EE).params.unimplPolicy = .reset) := by decide
theorem witness_FaultingStepIsPrecise_reset :
    let s := (withParams { Config.defaults with unimplPolicy := .reset }).withFetchWord 16 0x0123
    stepReport 7 s = .raised ⟨.unimplemented, 0x200, some 0x0123, none, none⟩ ∧ s.params.unimplPolicy = .reset := by decide

theorem witness_HostOpsIgnoreLatch : (∀ d, HostOp.timerUpdate 5 ≠ .step d) ∧ HostOp.timerUpdate 5 ≠ .reset ∧
    HostOp.timerUpdate 5 ≠ .observe ∧ (State.reset.setFault (some record)).fault = some record :=
  ⟨nofun, nofun, nofun, rfl⟩

theorem witness_EncodeOfDecode : decode 0xD12F = some (.drw 1 2 15) := by decide

theorem witness_DecodeFollowsOpcodeMap_row :
    (⟨"SHL", 0xF00F, 0x800E⟩ : OpcodeRow) ∈ opcodeMap ∧ OpcodeRow.matches ⟨"SHL", 0xF00F, 0x800E⟩ 0x8FFE = true := by
  decide
theorem witness_DecodeFollowsOpcodeMap_none : ∀ r ∈ opcodeMap, r.matches 0x800F = false := by decide

theorem witness_OpcodeRowsAreDisjoint :
    (⟨"CLS", 0xFFFF, 0x00E0⟩ : OpcodeRow) ∈ opcodeMap ∧ OpcodeRow.matches ⟨"CLS", 0xFFFF, 0x00E0⟩ 0x00E0 = true := by
  decide

theorem witness_RetPopsOrUnderflows_pops : (depth 16).sp.val = (15 : Fin 16).val + 1 ∧
    (depth 1).sp.val = (0 : Fin 16).val + 1 := by decide
theorem witness_RetPopsOrUnderflows_empty : (depth 0).sp.val = 0 := by decide

theorem witness_JumpSetsPc : State.reset.pc.toNat = (0x200 : Addr12).toNat := by decide

theorem witness_CallPushesOrOverflows_pushes : (depth 15).sp.val = (15 : Fin 16).val ∧
    (depth 0).sp.val = (0 : Fin 16).val := by decide
theorem witness_CallPushesOrOverflows_full : (depth 16).sp.val = 16 := by decide

/-- The subroutine sets the delay timer before it returns. -/
theorem witness_CallThenRetReturns :
    let t := result (.call 0x210) (depth 15)
    (depth 15).sp.val < 16 ∧ exec (.call 0x210) (depth 15) = .next t ∧ (t.setDt 9).sp = t.sp ∧
      (t.setDt 9).stack = t.stack ∧ t.setDt 9 ≠ t := ⟨by decide, rfl, rfl, rfl, by decide⟩

theorem witness_JumpV0AddsV0OrFaults_inside : ((regs 0xFF 0 0).reg 0).toNat + (0xF00 : Addr12).toNat < 0x1000 := by decide
theorem witness_JumpV0AddsV0OrFaults_outside :
    0x1000 ≤ ((regs 0xFF 0 0).reg 0).toNat + (0xF01 : Addr12).toNat := by decide

theorem witness_AddImmediateWrapsWithoutFlag : (3 : Reg) ≠ VF := by decide
theorem witness_AddSetsCarry : (14 : Reg) ≠ VF := by decide
theorem witness_SubtractionsSetNoBorrow : (0 : Reg) ≠ VF := by decide
theorem witness_ShiftsKeepTheBitShiftedOut : (2 : Reg) ≠ VF := by decide
theorem witness_RandomByteIsMasked : ∃ t, exec (.rnd 3 0) State.reset = .next t ∧ t.reg 3 = 0 :=
  ⟨_, rfl, by simp [loadRandom, State.nextDraw, State.reg, State.setReg]⟩

theorem witness_BcdStoresDigits_stores :
    (State.reset.setI 0xFFD).mem.wf = true ∧ (State.reset.setI 0xFFD).i.toNat + 3 ≤ 0x1000 := by decide
theorem witness_BcdStoresDigits_faults :
    (State.reset.setI 0xFFE).mem.wf = true ∧ 0x1000 < (State.reset.setI 0xFFE).i.toNat + 3 := by decide

theorem witness_RegisterStoreIsPerRegister_stores :
    (State.reset.setI 0xFF0).mem.wf = true ∧ (State.reset.setI 0xFF0).i.toNat + (15 : Reg).val + 1 ≤ 0x1000 := by decide
theorem witness_RegisterStoreIsPerRegister_faults :
    (State.reset.setI 0xFF1).mem.wf = true ∧ 0x1000 < (State.reset.setI 0xFF1).i.toNat + (15 : Reg).val + 1 := by decide

theorem witness_RegisterLoadIsPerRegister_loads :
    (State.reset.setI 0xFFF).i.toNat + (0 : Reg).val + 1 ≤ 0x1000 := by decide
theorem witness_RegisterLoadIsPerRegister_faults :
    0x1000 < (State.reset.setI 0x1000).i.toNat + (0 : Reg).val + 1 := by decide

theorem witness_FetchSeesStoredBytes :
    let s := State.reset.setI 0x300
    let t := result (.ldMemVx 1) s
    s.mem.wf = true ∧ s.i.toNat + (1 : Reg).val + 1 ≤ 0x1000 ∧ (0 : Reg) < 1 ∧ exec (.ldMemVx 1) s = .next t ∧
      (t.setPc 0x300).mem = t.mem ∧ (t.setPc 0x300).pc.toNat = indexAddr s (0 : Reg) :=
  ⟨by decide, by decide, by decide, rfl, rfl, by decide⟩

/-- A screen of three rows, on which a sprite of four overlaps itself (43_display R166). -/
def threeRows : State := { withParams { Config.defaults with height := 3 } with i := 0x300 }

theorem witness_DrawTogglesEachHit_draws :
    let s := State.reset.setI 0xFF1
    s.fb.wf s.params.height = true ∧ 1 ≤ s.params.height ∧ s.i.toNat + (15 : Fin 16).val ≤ 0x1000 := by decide
theorem witness_DrawTogglesEachHit_overlap :
    threeRows.fb.wf threeRows.params.height = true ∧ 1 ≤ threeRows.params.height ∧
      threeRows.params.height < (4 : Fin 16).val ∧ threeRows.i.toNat + (4 : Fin 16).val ≤ 0x1000 := by decide
theorem witness_DrawTogglesEachHit_no_rows :
    let s := State.reset.setI 0xFFFF
    s.fb.wf s.params.height = true ∧ 1 ≤ s.params.height ∧ (0 : Fin 16).val = 0 := by decide
theorem witness_DrawTogglesEachHit_faults :
    let s := State.reset.setI 0xFF2
    s.fb.wf s.params.height = true ∧ 1 ≤ s.params.height ∧ (15 : Fin 16).val ≠ 0 ∧
      0x1000 < s.i.toNat + (15 : Fin 16).val := by decide

/-- The sprite and the origin of P4 of 95_test_vectors. -/
def spriteAt60 : State := ((indexed 0x300 [0xFF]).setReg 1 0x3C).setReg 2 5

theorem witness_DrawTwiceRestores :
    let s := spriteAt60
    let t := result (.drw 1 2 1) s
    let u := t.setPc 0x20E
    s.fb.wf s.params.height = true ∧ (1 : Fin 16).val ≤ s.params.height ∧ 1 ≤ s.params.height ∧
      s.i.toNat + (1 : Fin 16).val ≤ 0x1000 ∧ exec (.drw 1 2 1) s = .next t ∧ u.fb = t.fb ∧ u.mem = s.mem ∧ u.i = s.i ∧
      u.reg 1 = s.reg 1 ∧ u.reg 2 = s.reg 2 ∧ u.params = s.params :=
  ⟨by decide, by decide, by decide, by decide, rfl, rfl, rfl, rfl, by decide, by decide, rfl⟩

theorem witness_HostReadsTwoColours : State.reset.params.wf = true ∧ 63 < 64 ∧ 31 < State.reset.params.height := by decide

theorem witness_KeySkipsFollowTheMask_key :
    ((regs 0x0F 0 0).reg 0).toNat ≤ 0x0F ∧
      true = ((regs 0x0F 0 0).setKbd 0x8000).kbd.getLsbD ((regs 0x0F 0 0).reg 0).toNat := by decide
theorem witness_KeySkipsFollowTheMask_low_nibble :
    let s := { regs 0x10 0 0 with kbd := 1, params := { Config.defaults with keyRangePolicy := .lowNibble } }
    0x0F < (s.reg 0).toNat ∧ s.params.keyRangePolicy = .lowNibble ∧ true = s.kbd.getLsbD ((s.reg 0).toNat % 16) := by decide
theorem witness_KeySkipsFollowTheMask_not_pressed :
    let s := { regs 0x10 0 0 with kbd := 1, params := { Config.defaults with keyRangePolicy := .notPressed } }
    0x0F < (s.reg 0).toNat ∧ s.params.keyRangePolicy = .notPressed := by decide
theorem witness_KeySkipsFollowTheMask_fault :
    0x0F < ((regs 0x10 0 0).reg 0).toNat ∧ (regs 0x10 0 0).params.keyRangePolicy = .fault := by decide

theorem witness_KeyWaitTakesLowestKey_none : State.reset.kbd = 0 := by decide
theorem witness_KeyWaitTakesLowestKey_key :
    (State.reset.setKbd 0x8000).kbd.getLsbD (15 : Reg) = true ∧
      ∀ j, j < (15 : Reg).val → (State.reset.setKbd 0x8000).kbd.getLsbD j = false := by decide

theorem witness_FirstTimerUpdateStartsClock : (State.reset.setDt 5).tmrEpoch = none := by decide

theorem witness_TimerUpdateCountsPeriods_backwards :
    ((clocked .driftFree).setTimerClock (some 1000) 0).tmrEpoch = some 1000 ∧ 500 < 1000 := by decide
theorem witness_TimerUpdateCountsPeriods_drift_free :
    (clocked .driftFree).tmrEpoch = some 0 ∧ 0 ≤ 17 ∧ (clocked .driftFree).params.timerAccounting = .driftFree := by
  decide
theorem witness_TimerUpdateCountsPeriods_anchor_now :
    (clocked .anchorNow).tmrEpoch = some 0 ∧ 0 ≤ 17 ∧ (clocked .anchorNow).params.timerAccounting = .anchorNow := by
  decide

theorem witness_DriftFreeCountsWholePeriods :
    (clocked .driftFree).tmrEpoch = some 0 ∧ (clocked .driftFree).tmrDone = 0 ∧
      (clocked .driftFree).params.timerAccounting = .driftFree ∧ ∀ u ∈ [25, 75, 50], u ≤ 100 := by decide

theorem witness_WhoWritesVF : ∃ t, exec (.addReg 0 1) (regs 0xFF 1 0) = .next t ∧ t.reg VF ≠ (regs 0xFF 1 0).reg VF :=
  ⟨_, rfl, by decide⟩
theorem witness_WhoWritesI : ∃ t, exec (.ldI 0x300) State.reset = .next t ∧ t.i ≠ State.reset.i := ⟨_, rfl, by decide⟩
theorem witness_WhoTouchesTheStack :
    ∃ t, exec (.call 0x210) State.reset = .next t ∧ t.sp ≠ State.reset.sp ∧
      t.stack[(0 : Fin 16)] ≠ State.reset.stack[(0 : Fin 16)] := ⟨_, rfl, by decide, by decide⟩
theorem witness_WhoWritesMemory :
    ∃ t, exec (.ldMemVx 0) ((regs 9 0 0).setI 0xFFF) = .next t ∧ t.mem.read 0xFFF ≠ (regs 9 0 0).mem.read 0xFFF :=
  ⟨_, rfl, by decide⟩
theorem witness_WhoWritesPixels :
    ∃ t, exec (.drw 1 2 1) spriteAt60 = .next t ∧ t.fb ≠ spriteAt60.fb := ⟨_, rfl, by decide⟩
theorem witness_InstructionsLeaveTimersAndKeys :
    ∃ t u, exec (.ldDtVx 0) (regs 9 0 0) = .next t ∧ t.dt ≠ (regs 9 0 0).dt ∧
      exec (.ldStVx 0) (regs 9 0 0) = .next u ∧ u.st ≠ (regs 9 0 0).st := ⟨_, _, rfl, by decide, rfl, by decide⟩
theorem witness_WhoRaisesWhat :
    State.reset.fault = none ∧ execReport 7 .ret State.reset = .raised record ∧
      execReport 7 (.ldVxMem 0) (State.reset.setI 0x1000) =
        .raised ⟨.memoryRange, 0x200, some 0xF065, some 0x1000, none⟩ := by decide

theorem witness_KeyEventsChangeOneBit : 15 < 16 ∧ (HostOp.loadRom [1] ≠ .reset ∧
    ∀ j, HostOp.loadRom [1] ≠ .keyDown j ∧ HostOp.loadRom [1] ≠ .keyUp j) ∧
    ∃ t, step (State.reset.withFetchWord 16 0x1200) = .next t :=
  ⟨by decide, ⟨nofun, fun _ => ⟨nofun, nofun⟩⟩, _, rfl⟩

theorem witness_RomIsLoadedOrRefusedWhole_loaded :
    State.reset.mem.wf = true ∧ (List.replicate 3584 (1 : Byte)).length ≤ 3584 :=
  ⟨by decide, List.length_replicate.le⟩
theorem witness_RomIsLoadedOrRefusedWhole_refused :
    State.reset.mem.wf = true ∧ 3584 < (List.replicate 3585 (1 : Byte)).length :=
  ⟨by decide, by rw [List.length_replicate]; decide⟩
theorem witness_FontIsLoadedAtZero : State.reset.mem.wf = true := by decide
theorem witness_BootLoadsCommute : ([0x60, 0x05, 0x61, 0x03, 0x80, 0x14] : List Byte).length ≤ 3584 := by decide

theorem witness_ParkedCoreStaysParked :
    (State.reset.withFetchWord 16 0x1200).parked = true ∧ (State.reset.withFetchWord 16 0x1200).fault = none := by decide

theorem witness_ResetMeetsInvariant : (regs 1 2 3).params.wf = true := by decide

/-- A state that meets the invariant: the state after reset with a CALL at the program base. -/
theorem witness_StepKeepsInvariant :
    (State.reset.withFetchWord 16 0x2210).Inv ∧ ∃ t, step (State.reset.withFetchWord 16 0x2210) = .next t :=
  ⟨{ params := by decide
     mem := by decide
     fb := by decide
     pc := by decide
     stack := by decide
     latch := by intro r h; cases h
     clock := by intro _; rfl }, _, rfl⟩
theorem witness_HostRunsKeepInvariant : (State.reset.withFetchWord 16 0x2210).Inv := witness_StepKeepsInvariant.1
theorem witness_PcNeverWraps : (withParams { Config.defaults with height := 64 }).params.wf = true := by decide

theorem witness_GivenDrawIsMasked : (0 : Byte) = 0 ∧ (0xFF : Byte) = 0xFF := by decide
/-- A step that runs a jump draws nothing. -/
theorem witness_OnlyRndUsesTheDraw :
    ∀ op x kk, fetch (State.reset.withFetchWord 16 0x1200) = .ok op → decode op ≠ some (.rnd x kk) := by
  rintro op x kk h
  obtain rfl : 0x1200 = op := Except.ok.inj h
  exact nofun

end Sys2Proof.Tests
end

section
/-! PROOFS, 10_state. Reset: the state after reset and the state that the reset operation leaves hold the same record,
`CoreState.reset`, whose fields are read off one by one. -/

namespace Sys2Proof.Machine

@[simp] theorem CoreState.reset_stack_getElem (j : Fin 16) : CoreState.reset.stack[j] = 0 := by
  simp [CoreState.reset]

/-- Every register reads 0 in a state that holds the record of reset. -/
theorem State.reg_of_toCoreState_eq_reset {t : State} (h : t.toCoreState = CoreState.reset) (x : Reg) :
    t.reg x = 0 := by
  simp [State.reg, h, CoreState.reset]

/-- However a state was reset, it holds the record of reset (10_state R47, 70_reset R240). -/
theorem State.toCoreState_eq_reset {t : State} (h : t = State.reset ∨ ∃ s, t = (hostOp .reset s).1) :
    t.toCoreState = CoreState.reset := by
  obtain rfl | ⟨s, rfl⟩ := h
  · rfl
  · exact s.resetOp_toCoreState

/-- Settles O1: both ways of resetting give the record of reset, and each field of it is the spec's. -/
theorem resetZeroesEveryField : Obligations.ResetZeroesEveryField := by
  intro t ht
  have core : t.toCoreState = CoreState.reset := State.toCoreState_eq_reset ht
  have reg : ∀ x, t.reg x = 0 := State.reg_of_toCoreState_eq_reset core
  rw [core]
  exact ⟨Memory.read_nil, reg, rfl, rfl, rfl, CoreState.reset_stack_getElem, rfl, rfl, rfl, Framebuffer.pixel_nil,
    rfl, rfl, rfl⟩

end Sys2Proof.Machine
end

section
/-! PROOFS, 30_encoding. The fetch: at a `PC` with both bytes inside memory it reads the big-endian word, and at any
other `PC` a step with the latch clear only latches the range fault. -/

namespace Sys2Proof.Machine

/-- A `PC` with two bytes of memory from it on is fetched from (30_encoding R80). -/
theorem fetch_of_pc_le {s : State} (h : s.pc.toNat ≤ 0xFFE) :
    fetch s = .ok (wordOfBytes (s.mem.read s.pc.toNat) (s.mem.read (s.pc.toNat + 1))) := by
  obtain ⟨-, hf⟩ | ⟨hpc, -⟩ := fetch_cases s
  · exact hf
  · omega

/-- A step that cannot fetch latches the range fault, with no word read, and changes nothing else (30_encoding R80,
60_exceptions R203). -/
theorem step_of_le_pc {s : State} (hpc : 0xFFF ≤ s.pc.toNat) (hlatch : s.fault = none) :
    step s = .next (s.setFault (some ((Raise.memoryRange (firstBad s.pc.toNat)).record s.pc none))) := by
  obtain ⟨r, hr, -⟩ | ⟨-, -, hstep⟩ | ⟨op, -, hle, -⟩ | ⟨op, i, -, hle, -⟩ := step_cases s
  · simp [hlatch] at hr
  · exact hstep
  · omega
  · omega

/-- Settles O2: up to 0xFFE the fetched word has the value of its two bytes, and from 0xFFF on the step latches the
range fault at `firstBad`, which is the larger of `PC` and 0x1000. -/
theorem fetchIsBigEndianAndChecked : Obligations.FetchIsBigEndianAndChecked := by
  intro s
  constructor
  · intro hpc
    exact ⟨_, fetch_of_pc_le hpc, wordOfBytes_toNat _ _⟩
  · exact step_of_le_pc

end Sys2Proof.Machine
end

section
/-! PROOFS, 40_control_flow. Each instruction of the family as one equation per case, with its next state as an update of
the state before it; the statements follow from the equations and the frames of the updates. -/

namespace Sys2Proof.Machine

section
variable (s : State)

/-! ### Updates of `PC` and of the stack pointer -/

@[simp] theorem addrWord_toNat (nnn : Addr12) : (addrWord nnn).toNat = nnn.toNat :=
  BitVec.toNat_setWidth_of_le (by decide)

/-- A jump forgets the pre-advance (40_control_flow R100). -/
@[simp] theorem State.setPc_advance (a : Word) : s.advance.setPc a = s.setPc a := rfl

@[simp] theorem State.setPc_self : s.setPc s.pc = s := rfl

/-- A skip passes over the next word on top of the pre-advance (R100). -/
theorem State.skipIf_advance (c : Bool) : s.advance.skipIf c = s.setPc (s.pc + if c then 4 else 2) := by
  rw [State.skipIf_eq, State.setPc_advance, State.advance_pc]
  cases c <;> simp [BitVec.add_assoc]

theorem onlyChanges_setPc (a : Word) : OnlyChanges (· ∈ [Part.pc]) s (s.setPc a) := by
  intro p hp
  cases p with
  | pc => exact absurd (List.mem_singleton_self _) hp
  | _ => rfl

theorem onlyChanges_pc_sp (a : Word) (d : Fin 17) :
    OnlyChanges (· ∈ [Part.pc, .sp]) s { s with pc := a, sp := d } := by
  intro p hp
  cases p with
  | pc | sp => simp at hp
  | _ => rfl

theorem onlyChanges_pc_sp_slot (j : Fin 16) (w a : Word) (d : Fin 17) :
    OnlyChanges (· ∈ [Part.pc, .sp, .slot j]) s { s with stack := s.stack.set j w, sp := d, pc := a } := by
  intro p hp
  cases p with
  | pc | sp => simp at hp
  | slot k =>
    have hne : j.val ≠ k.val := fun h => hp (by simp [Fin.ext h])
    exact Vector.getElem_set_ne j.isLt k.isLt hne
  | _ => rfl

/-! ### An instruction that faults -/

/-- An effect that raises anything but `Unimplemented` leaves the state before it, with the record latched
(60_exceptions R204). -/
theorem complete_latches {op : Word} {body : State → Except Raise State} {r : Raise} (h : body s.advance = .error r)
    (hr : r ≠ .unimplemented) : complete op body s = .next (s.setFault (some (r.record s.pc (some op)))) := by
  rw [complete_error h, s.takeFault_latch _ hr]

/-! ### RET and CALL -/

/-- RET at depth `j + 1` (R101). -/
theorem exec_ret_of_succ {j : Fin 16} (h : s.sp.val = j.val + 1) :
    exec .ret s = .next { s with pc := s.stack[j], sp := j.castSucc } := by
  have hpop := s.advance.popPc_of_pos (by simp [h])
  rw [exec_ret, complete_ok hpop]
  simp [h, State.advance, State.setPc, Fin.ext_iff]

/-- RET on an empty stack (R101). -/
theorem exec_ret_of_zero (h : s.sp.val = 0) :
    exec .ret s = .next (s.setFault (some ⟨.stackUnderflow, s.pc, some 0x00EE, none, none⟩)) := by
  rw [exec_ret]
  exact complete_latches s (r := .stackUnderflow) (s.advance.popPc_of_zero h) nofun

/-- CALL at depth `j` (R103). -/
theorem exec_call_of_lt (nnn : Addr12) {j : Fin 16} (h : s.sp.val = j.val) :
    exec (.call nnn) s =
      .next { s with stack := s.stack.set j (s.pc + 2), sp := j.succ, pc := addrWord nnn } := by
  have hpush := s.advance.pushPc_of_lt (addrWord nnn) (by simp [h])
  rw [exec_call, complete_ok hpush]
  simp [h, State.advance, State.setPc, Fin.ext_iff]

/-- CALL on a full stack (R103). -/
theorem exec_call_of_full (nnn : Addr12) (h : s.sp.val = 16) :
    exec (.call nnn) s =
      .next (s.setFault (some ⟨.stackOverflow, s.pc, some (encode (.call nnn)), none, none⟩)) := by
  rw [exec_call]
  exact complete_latches s (r := .stackOverflow) (s.advance.pushPc_of_full _ h) nofun

/-! ### JP V0 -/

/-- JP V0 to a target inside memory (R108). -/
theorem exec_jpV0_of_lt (nnn : Addr12) (h : v0Target s nnn < memSize) :
    exec (.jpV0 nnn) s = .next (s.setPc (BitVec.ofNat 16 (v0Target s nnn))) := by
  rw [exec_jpV0]
  exact complete_ok (if_pos h)

/-- JP V0 to a target outside memory (R108). -/
theorem exec_jpV0_of_le (nnn : Addr12) (h : memSize ≤ v0Target s nnn) :
    exec (.jpV0 nnn) s = .next (s.setFault (some
      ⟨.memoryRange, s.pc, some (encode (.jpV0 nnn)), some (v0Target s nnn), none⟩)) := by
  rw [exec_jpV0]
  exact complete_latches s (r := .memoryRange (v0Target s nnn)) (if_neg h.not_gt) nofun

/-! ### The skips -/

/-- A skip as the statement has it: the next state is `PC` moved by 4 or 2, by the condition. -/
theorem exists_next_skipIf {i : Instr} {c : Bool} (h : exec i s = .next (s.advance.skipIf c)) :
    ∃ t, exec i s = .next t ∧ t.pc = s.pc + (if c then 4 else 2) ∧ OnlyChanges (· ∈ [Part.pc]) s t :=
  ⟨_, s.skipIf_advance c ▸ h, rfl, onlyChanges_setPc s _⟩

end

/-! ### The statements -/

/-- Settles O15: below depth 16 the next state is the push of `exec_call_of_lt`, at depth 16 the overflow is latched. -/
theorem callPushesOrOverflows : Obligations.CallPushesOrOverflows := by
  intro s nnn
  constructor
  · intro j hj
    exact ⟨_, exec_call_of_lt s nnn hj, Vector.getElem_set_self j.isLt, rfl, addrWord_toNat nnn,
      onlyChanges_pc_sp_slot s j _ _ _⟩
  · exact exec_call_of_full s nnn

/-- Settles O17: each skip moves `PC` by its condition, as a Boolean, and SNE's is the negation of SE's. -/
theorem skipsFollowTheirCondition : Obligations.SkipsFollowTheirCondition := by
  intro s x y kk
  refine ⟨?_, ?_, ?_, ?_⟩
  · simpa using exists_next_skipIf s (exec_seImm s x kk)
  · simpa using exists_next_skipIf s (exec_sneImm s x kk)
  · simpa using exists_next_skipIf s (exec_seReg s x y)
  · simpa using exists_next_skipIf s (exec_sneReg s x y)

/-- Settles O18: a target below 0x1000 is its own 16-bit word and `PC` takes it; any other is latched as the address of
the fault. -/
theorem jumpV0AddsV0OrFaults : Obligations.JumpV0AddsV0OrFaults := by
  intro s nnn
  constructor
  · intro h
    have hword : (BitVec.ofNat 16 (v0Target s nnn)).toNat = v0Target s nnn :=
      (BitVec.toNat_ofNat _ _).trans (Nat.mod_eq_of_lt (h.trans (by decide)))
    exact ⟨_, exec_jpV0_of_lt s nnn h, hword, onlyChanges_setPc s _⟩
  · exact exec_jpV0_of_le s nnn

/-- Settles O13: on a stack that is not empty the next state is the pop of `exec_ret_of_succ`, on an empty one the
underflow is latched. -/
theorem retPopsOrUnderflows : Obligations.RetPopsOrUnderflows := by
  intro s
  constructor
  · intro j hj
    exact ⟨_, exec_ret_of_succ s hj, rfl, rfl, onlyChanges_pc_sp s _ _⟩
  · exact exec_ret_of_zero s

/-- Settles O14: the next state is `PC` replaced, which is the same state if `PC` is the target already. -/
theorem jumpSetsPc : Obligations.JumpSetsPc := by
  intro s nnn
  refine ⟨s.setPc (addrWord nnn), exec_jp s nnn, addrWord_toNat nnn, onlyChanges_setPc s _, fun hpc => ?_⟩
  have hself : addrWord nnn = s.pc := BitVec.eq_of_toNat_eq ((addrWord_toNat nnn).trans hpc.symm)
  rw [hself, State.setPc_self]

end Sys2Proof.Machine
end

section
/-! PROOFS, 41_alu. Each instruction of the family is a pre-advance and then a write of its destination, after it of VF
where there is a flag: the values written are read back by the rules of the register writes, the frames are built up write
by write, and what is left is arithmetic on bytes. -/

namespace Sys2Proof.Machine

section
variable {s t : State} {T : Part → Prop}

/-! ### Frames, write by write -/

theorem onlyChanges_advance (s : State) (hpc : T .pc) : OnlyChanges T s s.advance :=
  (onlyChanges_setPc s _).mono fun _ hp => List.mem_singleton.1 hp ▸ hpc

theorem OnlyChanges.setReg (h : OnlyChanges T s t) {x : Reg} (hx : T (.reg x)) (b : Byte) :
    OnlyChanges T s (t.setReg x b) := by
  refine h.trans fun p hp => ?_
  cases p with
  | reg q =>
    have hne : q ≠ x := fun hq => hp (hq ▸ hx)
    exact t.reg_setReg_ne b hne
  | _ => rfl

theorem OnlyChanges.nextDraw (h : OnlyChanges T s t) (hd : T .draws) : OnlyChanges T s t.nextDraw := by
  refine h.trans fun p hp => ?_
  cases p with
  | draws => exact absurd hd hp
  | _ => rfl

end

section
variable (s : State) (x : Reg) (b : Byte) (f : Bool)

/-- The frame of an instruction that writes its destination alone. -/
theorem onlyChanges_advance_setReg : OnlyChanges (· ∈ [Part.pc, .reg x]) s (s.advance.setReg x b) :=
  (onlyChanges_advance s (by simp)).setReg (by simp) b

/-- The frame of an instruction that writes its destination and then the flag. -/
theorem onlyChanges_advance_setRegFlag :
    OnlyChanges (· ∈ [Part.pc, .reg x, .reg VF]) s (s.advance.setRegFlag x b f) :=
  ((onlyChanges_advance s (by simp)).setReg (by simp) b).setReg (by simp) _

/-- The frame of RND with a given draw. -/
theorem onlyChanges_advance_loadRandom (r kk : Byte) :
    OnlyChanges (· ∈ [Part.pc, .reg x, .draws]) s (loadRandom r x kk s.advance) :=
  ((onlyChanges_advance s (by simp)).setReg (by simp) _).nextDraw (by simp)

/-! ### What is read back after a result and its flag -/

theorem State.reg_VF_setRegFlag : (s.setRegFlag x b f).reg VF = if f then 1 else 0 := by
  rw [State.reg_setRegFlag, if_pos rfl]

/-- The result is lost exactly where VF is the destination (00_scope R28). -/
theorem State.reg_setRegFlag_of_ne_VF {x : Reg} (hx : x ≠ VF) : (s.setRegFlag x b f).reg x = b := by
  rw [State.reg_setRegFlag, if_neg hx, if_pos rfl]

end

/-! ### Arithmetic on bytes -/

section
variable (a b : Byte)

/-- The difference of bytes is the exact one modulo 256 (41_alu R128, R130). -/
theorem toNat_byte_sub : ((a - b).toNat : Int) = ((a.toNat : Int) - b.toNat) % 256 := by
  have hsub : (a - b).toNat = (2 ^ 8 - b.toNat + a.toNat) % 2 ^ 8 := BitVec.toNat_sub a b
  omega

theorem toNat_flagByte (f : Bool) : (if f then 1 else 0 : Byte).toNat = f.toNat := by
  cases f <;> rfl

theorem shrFlag_toNat : (shrFlag a).toNat = a.toNat % 2 := by
  rw [shrFlag, BitVec.getLsbD, Nat.toNat_testBit, pow_zero, Nat.div_one]

theorem shlFlag_toNat : (shlFlag a).toNat = a.toNat / 128 := by
  have hbit : (shlFlag a).toNat = a.toNat / 2 ^ 7 % 2 := Nat.toNat_testBit a.toNat 7
  have hlt : a.toNat < 2 ^ 8 := a.isLt
  omega

end

/-! ### The statements -/

/-- Settles O21: the destination reads the bitwise operation of the operands, and VF is outside the frame unless it is
the destination. -/
theorem bitwiseOpsActBitByBit : Obligations.BitwiseOpsActBitByBit := by
  intro s x y
  refine ⟨⟨_, exec_orReg s x y, fun k => ?_, rfl, onlyChanges_advance_setReg s x _⟩,
    ⟨_, exec_andReg s x y, fun k => ?_, rfl, onlyChanges_advance_setReg s x _⟩,
    ⟨_, exec_xorReg s x y, fun k => ?_, rfl, onlyChanges_advance_setReg s x _⟩⟩
  · rw [State.reg_setReg_self, BitVec.getLsbD_or]
  · rw [State.reg_setReg_self, BitVec.getLsbD_and]
  · rw [State.reg_setReg_self, BitVec.getLsbD_xor]

/-- Settles O22: the destination reads the sum of bytes unless the carry, written after it, is in its place. -/
theorem addSetsCarry : Obligations.AddSetsCarry := by
  intro s x y
  refine ⟨_, exec_addReg s x y, fun hx => ?_, ?_, rfl, onlyChanges_advance_setRegFlag s x _ _⟩
  · rw [State.reg_setRegFlag_of_ne_VF _ _ _ hx, BitVec.toNat_add]
  · simp only [State.reg_VF_setRegFlag, carryFlag, decide_eq_true_eq]

/-- The result and the flag of a subtraction `a - b` written to `Vx` (41_alu R128, R130): SUB and SUBN are this, with
their operands exchanged. -/
theorem exists_next_subtraction {i : Instr} {s : State} {x : Reg} {a b : Byte}
    (h : exec i s = .next (s.advance.setRegFlag x (a - b) (noBorrowFlag a b))) :
    ∃ t, exec i s = .next t ∧ (x ≠ VF → ((t.reg x).toNat : Int) = ((a.toNat : Int) - b.toNat) % 256) ∧
      t.reg VF = (if a.toNat ≥ b.toNat then 1 else 0) ∧ t.pc = s.pc + 2 ∧
      OnlyChanges (· ∈ [Part.pc, .reg x, .reg VF]) s t := by
  refine ⟨_, h, fun hx => ?_, ?_, rfl, onlyChanges_advance_setRegFlag s x _ _⟩
  · rw [State.reg_setRegFlag_of_ne_VF _ _ _ hx, toNat_byte_sub]
  · simp only [State.reg_VF_setRegFlag, noBorrowFlag, decide_eq_true_eq]

/-- Settles O23: SUB and SUBN are one subtraction with the operands exchanged. -/
theorem subtractionsSetNoBorrow : Obligations.SubtractionsSetNoBorrow := by
  intro s x y
  exact ⟨exists_next_subtraction (exec_sub s x y), exists_next_subtraction (exec_subn s x y)⟩

/-- Settles O24: the shifts by one as arithmetic, the flags as the bits shifted out, and next states in which `y` does not
occur. -/
theorem shiftsKeepTheBitShiftedOut : Obligations.ShiftsKeepTheBitShiftedOut := by
  intro s x y
  refine ⟨⟨_, exec_shr s x y, fun hx => ?_, ?_, rfl, onlyChanges_advance_setRegFlag s x _ _⟩,
    ⟨_, exec_shl s x y, fun hx => ?_, ?_, rfl, onlyChanges_advance_setRegFlag s x _ _⟩, fun y' => ⟨?_, ?_⟩⟩
  · rw [State.reg_setRegFlag_of_ne_VF _ _ _ hx, BitVec.toNat_ushiftRight, Nat.shiftRight_one]
  · rw [State.reg_VF_setRegFlag, toNat_flagByte, shrFlag_toNat]
  · rw [State.reg_setRegFlag_of_ne_VF _ _ _ hx, BitVec.toNat_shiftLeft, Nat.shiftLeft_eq, pow_one]
  · rw [State.reg_VF_setRegFlag, toNat_flagByte, shlFlag_toNat]
  · rw [exec_shr, exec_shr]
  · rw [exec_shl, exec_shl]

/-- Settles O19: the destination reads the value that was written to it. -/
theorem registerLoadsCopy : Obligations.RegisterLoadsCopy := by
  intro s x y kk
  exact ⟨⟨_, exec_ldImm s x kk, State.reg_setReg_self _ _ _, rfl, onlyChanges_advance_setReg s x _⟩,
    ⟨_, exec_ldReg s x y, State.reg_setReg_self _ _ _, rfl, onlyChanges_advance_setReg s x _⟩⟩

/-- Settles O20: the destination reads the sum of bytes, and VF, if it is another register, is not written. -/
theorem addImmediateWrapsWithoutFlag : Obligations.AddImmediateWrapsWithoutFlag := by
  intro s x kk
  refine ⟨_, exec_addImm s x kk, ?_, fun hx => ?_, rfl, onlyChanges_advance_setReg s x _⟩
  · rw [State.reg_setReg_self, BitVec.toNat_add]
  · rw [State.reg_setReg_ne _ _ hx.symm, State.advance_reg]

/-- Settles O58: the destination reads the draw masked, and the masks 0 and 0xFF are the zero and the unit of the
conjunction. -/
theorem givenDrawIsMasked : Obligations.GivenDrawIsMasked := by
  intro r s x kk
  have hreg : (loadRandom r x kk s.advance).reg x = r &&& kk := State.reg_setReg_self _ _ _
  refine ⟨_, execWith_rnd r x kk s, hreg, fun hkk => ?_, fun hkk => ?_, rfl, onlyChanges_advance_loadRandom s x r kk⟩
  · rw [hreg, hkk]
    exact BitVec.and_zero
  · rw [hreg, hkk]
    exact BitVec.and_allOnes

end Sys2Proof.Machine
end

section
/-! PROOFS, 42_index_memory. The writers of `I` are a pre-advance and then one write. A transfer through `I` is its effect
behind one range check: a run inside memory is transferred byte by byte, a run that leaves it latches `MemoryRange` at the
first offending address. The two stores are one lemma over the bytes stored. -/

namespace Sys2Proof.Machine

section
variable {s t : State} {T : Part → Prop}

/-! ### Frames of the writes of the family -/

theorem OnlyChanges.setI (h : OnlyChanges T s t) (hi : T .i) (a : Word) : OnlyChanges T s (t.setI a) := by
  refine h.trans fun p hp => ?_
  cases p with
  | i => exact absurd hi hp
  | _ => rfl

theorem OnlyChanges.setMem (h : OnlyChanges T s t) {m : Memory}
    (hm : ∀ a, ¬ T (.byte a) → m.read a = t.mem.read a) : OnlyChanges T s (t.setMem m) := by
  refine h.trans fun p hp => ?_
  cases p with
  | byte a => exact hm a hp
  | _ => rfl

theorem OnlyChanges.loadRegsFrom (h : OnlyChanges T s t) {j : Nat} {l : List Byte} (hj : j + l.length ≤ 16)
    (hT : ∀ q : Reg, j ≤ q.val ∧ q.val - j < l.length → T (.reg q)) : OnlyChanges T s (t.loadRegsFrom j l) := by
  obtain ⟨v, hv, hq⟩ := t.loadRegsFrom_eq j l hj
  rw [hv]
  refine h.trans fun p hp => ?_
  cases p with
  | reg q => exact (hq q).trans (dif_neg fun hin => hp (hT q hin))
  | _ => rfl

end

section
variable (s : State)

theorem onlyChanges_advance_setI (a : Word) : OnlyChanges (· ∈ [Part.pc, .i]) s (s.advance.setI a) :=
  (onlyChanges_advance s (by simp)).setI (by simp) a

/-! ### The values given to `I` -/

theorem byteWord_toNat (b : Byte) : (byteWord b).toNat = b.toNat :=
  BitVec.toNat_setWidth_of_le (by decide)

theorem indexSum_toNat (x : Reg) : (indexSum s x).toNat = (s.i.toNat + (s.reg x).toNat) % 65536 := by
  rw [indexSum, BitVec.toNat_add, byteWord_toNat]

/-- The largest glyph address is 255 * 5, so the sum does not wrap (42_index_memory R143). -/
theorem glyphAddr_toNat (b : Byte) : (glyphAddr b).toNat = b.toNat * 5 := by
  have hlt : b.toNat < 256 := b.isLt
  have hglyph : (glyphAddr b).toNat = (0 + b.toNat * 5) % 2 ^ 16 := BitVec.toNat_ofNat _ _
  omega

/-! ### What is written by a run of bytes and by a run of registers -/

/-- Every byte of a run written inside memory stands at its own address. -/
theorem Memory.read_writeBytes_add {m : Memory} (hmem : m.wf = true) {a : Nat} {l : List Byte}
    (ha : a + l.length ≤ memSize) {k : Nat} (hk : k < l.length) : (m.writeBytes a l).read (a + k) = l[k] := by
  rw [Memory.read_writeBytes hmem l ha, dif_pos (by omega)]
  simp only [Nat.add_sub_cancel_left]

@[simp] theorem State.loadRegsFrom_pc (j : Nat) (l : List Byte) : (s.loadRegsFrom j l).pc = s.pc := by
  induction l generalizing s j with
  | nil => rfl
  | cons b rest ih =>
    rw [State.loadRegsFrom]
    split
    · exact ih _ _
    · rfl

/-! ### An effect behind a range check at `I` -/

section
variable {s} {i : Instr} {body : State → Except Raise State} {n : Nat} {t : State}

/-- A run inside memory is transferred (42_index_memory R140). -/
theorem exec_of_run_le (hexec : exec i s = complete (encode i) body s)
    (hbody : body s.advance = checkRange (indexAddr s 0) n t) (h : s.i.toNat + n ≤ 0x1000) : exec i s = .next t := by
  obtain ⟨-, hok⟩ | ⟨hout, -⟩ := checkRange_cases (indexAddr s 0) n t
  · exact hexec.trans (complete_ok (hbody.trans hok))
  · exact absurd (.inr h) hout

/-- A run that is not empty and leaves memory latches the range fault at its first offending address and does nothing
else (R140). -/
theorem exec_of_run_lt (hexec : exec i s = complete (encode i) body s)
    (hbody : body s.advance = checkRange (indexAddr s 0) n t) (hn : n ≠ 0) (h : 0x1000 < s.i.toNat + n) :
    exec i s = .next (s.setFault (some
      ⟨.memoryRange, s.pc, some (encode i), some (max s.i.toNat 0x1000), none⟩)) := by
  obtain ⟨hin, -⟩ | ⟨-, herror⟩ := checkRange_cases (indexAddr s 0) n t
  · exact absurd hin (not_or.2 ⟨hn, h.not_ge⟩)
  · exact hexec.trans (complete_latches s (hbody.trans herror) nofun)

/-- A store at `I` inside memory: every byte of the list stands at its own address, `I` is kept, and no other byte is
changed (R144, R145). -/
theorem exists_next_store {bytes : List Byte} (hmem : s.mem.wf = true)
    (hexec : exec i s = complete (encode i) body s) (hbody : body s.advance = storeAtIndex s.advance bytes)
    (h : s.i.toNat + bytes.length ≤ 0x1000) :
    ∃ t, exec i s = .next t ∧
      (∀ k (hk : k < bytes.length), t.mem.read (indexAddr s k) = bytes[k]) ∧ t.i = s.i ∧ t.pc = s.pc + 2 ∧
      OnlyChanges (fun p => p = .pc ∨ ∃ k, k < bytes.length ∧ p = .byte (indexAddr s k)) s t := by
  refine ⟨_, exec_of_run_le hexec hbody h, fun k hk => Memory.read_writeBytes_add hmem h hk, rfl, rfl, ?_⟩
  refine (onlyChanges_advance s (.inl rfl)).setMem fun a ha => ?_
  exact Memory.read_writeBytes_ne s.mem bytes fun k hk hak => ha (.inr ⟨k, hk, congrArg Part.byte hak⟩)

end

/-! ### The run loaded by LD Vx, [I] -/

/-- A register up to `Vx` reads its own byte (R146). -/
theorem State.reg_loadRegsFrom_indexRun {x k : Reg} (hk : k ≤ x) :
    (s.advance.loadRegsFrom 0 (indexRun s (x + 1))).reg k = s.mem.read (indexAddr s k) := by
  obtain ⟨v, hv, hq⟩ := s.advance.loadRegsFrom_eq 0 (indexRun s (x + 1)) (by simp)
  have hin : 0 ≤ k.val ∧ k.val - 0 < (indexRun s (x + 1)).length :=
    ⟨k.val.zero_le, (length_indexRun s _).symm ▸ Nat.lt_succ_of_le hk⟩
  rw [hv]
  exact (hq k).trans ((dif_pos hin).trans (Memory.getElem_readBytes _ _ _ _ _))

theorem onlyChanges_loadRegsFrom_indexRun (x : Reg) :
    OnlyChanges (fun p => p = .pc ∨ ∃ k : Reg, k ≤ x ∧ p = .reg k) s
      (s.advance.loadRegsFrom 0 (indexRun s (x + 1))) := by
  refine (onlyChanges_advance s (.inl rfl)).loadRegsFrom (by simp) fun q hq => .inr ⟨q, ?_, rfl⟩
  rw [length_indexRun] at hq
  exact Nat.le_of_lt_succ hq.2

end

/-! ### The statements -/

/-- Settles O26: each writer gives `I` its value after the pre-advance, and the values are those of `addrWord`, `indexSum`
and `glyphAddr`. -/
theorem indexWritersComputeI : Obligations.IndexWritersComputeI := by
  intro s x nnn
  exact ⟨⟨_, exec_ldI s nnn, addrWord_toNat nnn, rfl, onlyChanges_advance_setI s _⟩,
    ⟨_, exec_addIVx s x, indexSum_toNat s x, rfl, onlyChanges_advance_setI s _⟩,
    ⟨_, exec_ldFVx s x, glyphAddr_toNat (s.reg x), rfl, onlyChanges_advance_setI s _⟩⟩

/-- Settles O27: LD B is the store of the three digits, and a digit is a byte. -/
theorem bcdStoresDigits : Obligations.BcdStoresDigits := by
  intro s x hmem
  have hlt : (s.reg x).toNat < 256 := (s.reg x).isLt
  have hdigit : ∀ n < 256, (BitVec.ofNat 8 n).toNat = n := fun n hn =>
    (BitVec.toNat_ofNat n 8).trans (Nat.mod_eq_of_lt hn)
  constructor
  · intro h
    obtain ⟨t, ht, hbytes, -, hpc, hframe⟩ :=
      exists_next_store (bytes := bcdDigits (s.reg x)) hmem (exec_ldBVx s x) rfl h
    refine ⟨t, ht, ?_, ?_, ?_, hpc, hframe⟩
    · rw [hbytes 0 (by simp)]
      exact hdigit _ (by omega)
    · rw [hbytes 1 (by simp)]
      exact hdigit _ (by omega)
    · rw [hbytes 2 (by simp)]
      exact hdigit _ (by omega)
  · exact exec_of_run_lt (exec_ldBVx s x) rfl (by decide)

/-- Settles O28: LD [I], Vx is the store of the registers up to `Vx`. -/
theorem registerStoreIsPerRegister : Obligations.RegisterStoreIsPerRegister := by
  intro s x hmem
  have hlength : (s.regsUpTo x).length = x.val + 1 := s.length_regsUpTo x
  constructor
  · intro h
    obtain ⟨t, ht, hbytes, hi, hpc, hframe⟩ :=
      exists_next_store (bytes := s.regsUpTo x) hmem (exec_ldMemVx s x) rfl (by omega)
    refine ⟨t, ht, fun k hk => ?_, hi, hpc, ?_⟩
    · rw [hbytes k (hlength ▸ Nat.lt_succ_of_le hk), State.getElem_regsUpTo]
    · simpa only [hlength, Nat.lt_succ_iff] using hframe
  · intro h
    exact exec_of_run_lt (n := (s.regsUpTo x).length) (exec_ldMemVx s x) rfl (by omega) (by omega)

/-- Settles O29: the registers up to `Vx` are loaded from the run at `I`, and `I` is outside the frame. -/
theorem registerLoadIsPerRegister : Obligations.RegisterLoadIsPerRegister := by
  intro s x
  constructor
  · intro h
    have hframe := onlyChanges_loadRegsFrom_indexRun s x
    exact ⟨_, exec_of_run_le (exec_ldVxMem s x) rfl h, fun k hk => s.reg_loadRegsFrom_indexRun hk,
      hframe .i (by simp), s.advance.loadRegsFrom_pc _ _, hframe⟩
  · exact exec_of_run_lt (exec_ldVxMem s x) rfl x.val.succ_ne_zero

end Sys2Proof.Machine
end

section
/-! PROOFS, 43_display. A sprite is drawn hit by hit: the blit is one fold of `Canvas.hit` over `spriteHits`, so what a
pixel reads and whether a collision was met are inductions over a list of hits on the screen. -/

namespace Sys2Proof.Machine

/-! ### Frames -/

theorem OnlyChanges.setFb {s t : State} {T : Part → Prop} (h : OnlyChanges T s t) {f : Framebuffer}
    (hf : ∀ x y, ¬ T (.pixel x y) → f.pixel x y = t.fb.pixel x y) : OnlyChanges T s (t.setFb f) := by
  refine h.trans fun p hp => ?_
  cases p with
  | pixel x y => exact hf x y hp
  | _ => rfl

/-! ### A list of hits -/

/-- A list of pixels hit one after the other. -/
def Canvas.hits (c : Canvas) (ps : List Pixel) : Canvas := ps.foldl Canvas.hit c

@[simp] theorem Canvas.hits_nil (c : Canvas) : c.hits [] = c := rfl

@[simp] theorem Canvas.hits_cons (c : Canvas) (p : Pixel) (ps : List Pixel) : c.hits (p :: ps) = (c.hit p).hits ps :=
  rfl

theorem Canvas.hits_append (c : Canvas) (ps qs : List Pixel) : c.hits (ps ++ qs) = (c.hits ps).hits qs :=
  List.foldl_append

section
variable {height : Nat} {ps : List Pixel} {c : Canvas}

/-- A pixel is toggled as often as it stands in the list (43_display R162). -/
theorem Canvas.pixel_hits (hc : c.1.wf height = true) (hps : ∀ p ∈ ps, p.1 < width ∧ p.2 < height) (x y : Nat) :
    (c.hits ps).1.pixel x y = (c.1.pixel x y != (ps.count (x, y) % 2 == 1)) := by
  induction ps generalizing c with
  | nil => simp
  | cons q ps ih =>
    obtain ⟨⟨hx, hy⟩, hrest⟩ := List.forall_mem_cons.1 hps
    have hpixel : (c.hit q).1.pixel x y = if (x, y) = q then !c.1.pixel x y else c.1.pixel x y :=
      Framebuffer.pixel_toggle hc q x y
    rw [Canvas.hits_cons, ih (Framebuffer.wf_toggle hc hx hy) hrest, hpixel]
    by_cases hq : (x, y) = q
    · have hparity : ((ps.count (x, y) + 1) % 2 == 1) = !(ps.count (x, y) % 2 == 1) := by
        rcases Nat.mod_two_eq_zero_or_one (ps.count (x, y)) with h | h <;> simp [Nat.add_mod, h]
      rw [if_pos hq, ← hq, List.count_cons_self, hparity]
      simp
    · rw [if_neg hq, List.count_cons_of_ne (Ne.symm hq)]

/-- A pixel outside the list is left alone. -/
theorem Canvas.pixel_hits_of_not_mem (hc : c.1.wf height = true) (hps : ∀ p ∈ ps, p.1 < width ∧ p.2 < height)
    {x y : Nat} (h : (x, y) ∉ ps) : (c.hits ps).1.pixel x y = c.1.pixel x y := by
  rw [Canvas.pixel_hits hc hps, List.count_eq_zero_of_not_mem h]
  simp

/-- A pixel collides in a list of hits: it stands there, and it was on or is hit at least twice. -/
def Canvas.Collides (c : Canvas) (ps : List Pixel) (p : Pixel) : Prop :=
  p ∈ ps ∧ (c.1.pixel p.1 p.2 = true ∨ 2 ≤ ps.count p)

/-- The first pixel of a list collides if it is on, or if it is on once hit and collides in the rest. -/
theorem Canvas.collides_cons_self (hc : c.1.wf height = true) (p : Pixel) :
    c.Collides (p :: ps) p ↔ c.1.pixel p.1 p.2 = true ∨ (c.hit p).Collides ps p := by
  have hpixel : (c.hit p).1.pixel p.1 p.2 = !c.1.pixel p.1 p.2 :=
    (Framebuffer.pixel_toggle hc p p.1 p.2).trans (if_pos rfl)
  have hmem : 2 ≤ (p :: ps).count p ↔ p ∈ ps := by
    rw [List.count_cons_self, ← List.one_le_count_iff]
    omega
  rw [Canvas.Collides, Canvas.Collides, hpixel, hmem]
  cases c.1.pixel p.1 p.2 <;> simp

/-- Any other pixel collides in a list if it collides in the rest. -/
theorem Canvas.collides_cons_of_ne (hc : c.1.wf height = true) {p q : Pixel} (h : p ≠ q) :
    c.Collides (q :: ps) p ↔ (c.hit q).Collides ps p := by
  have hpixel : (c.hit q).1.pixel p.1 p.2 = c.1.pixel p.1 p.2 :=
    (Framebuffer.pixel_toggle hc q p.1 p.2).trans (if_neg h)
  rw [Canvas.Collides, Canvas.Collides, hpixel, List.count_cons_of_ne h.symm, List.mem_cons, or_iff_right h]

/-- Some pixel of a list collides if the first one is on, or if some pixel of the rest collides once the first is
hit. -/
theorem Canvas.exists_collides_cons (hc : c.1.wf height = true) (q : Pixel) :
    (∃ p, c.Collides (q :: ps) p) ↔ c.1.pixel q.1 q.2 = true ∨ ∃ p, (c.hit q).Collides ps p := by
  constructor
  · rintro ⟨p, hp⟩
    by_cases hpq : p = q
    · subst hpq
      exact ((Canvas.collides_cons_self hc p).1 hp).imp_right fun h => ⟨p, h⟩
    · exact .inr ⟨p, (Canvas.collides_cons_of_ne hc hpq).1 hp⟩
  · rintro (hon | ⟨p, hp⟩)
    · exact ⟨q, (Canvas.collides_cons_self hc q).2 (.inl hon)⟩
    · by_cases hpq : p = q
      · subst hpq
        exact ⟨p, (Canvas.collides_cons_self hc p).2 (.inr hp)⟩
      · exact ⟨p, (Canvas.collides_cons_of_ne hc hpq).2 hp⟩

/-- A collision is met exactly when some pixel collides (43_display R164). -/
theorem Canvas.collision_hits (hc : c.1.wf height = true) (hps : ∀ p ∈ ps, p.1 < width ∧ p.2 < height) :
    (c.hits ps).2 = true ↔ c.2 = true ∨ ∃ p, c.Collides ps p := by
  induction ps generalizing c with
  | nil => simp [Canvas.Collides]
  | cons q ps ih =>
    obtain ⟨⟨hx, hy⟩, hrest⟩ := List.forall_mem_cons.1 hps
    have hflag : (c.hit q).2 = true ↔ c.2 = true ∨ c.1.pixel q.1 q.2 = true := Bool.or_eq_true_iff
    rw [Canvas.hits_cons, ih (Framebuffer.wf_toggle hc hx hy) hrest, hflag, or_assoc, Canvas.exists_collides_cons hc]

end

/-! ### The blit as a list of hits -/

/-- The pixels that the 1 bits of one row of a sprite land on, from the given columns. -/
def rowHits (height x0 y0 row : Nat) (b : Byte) (cols : List Nat) : List Pixel :=
  cols.filterMap fun col => if b.getLsbD (7 - col) then some (target height x0 y0 row col) else none

theorem Canvas.drawCols_eq_hits (height x0 y0 row : Nat) (b : Byte) (c : Canvas) (cols : List Nat) :
    Canvas.drawCols height x0 y0 row b c cols = c.hits (rowHits height x0 y0 row b cols) := by
  induction cols generalizing c with
  | nil => rfl
  | cons col cols ih =>
    rw [Canvas.drawCols, ih, rowHits, rowHits, List.filterMap_cons]
    cases b.getLsbD (7 - col) <;> rfl

theorem Canvas.drawRows_eq_hits (height x0 y0 : Nat) (m : Memory) (a : Nat) (c : Canvas) (row n : Nat) :
    Canvas.drawRows height x0 y0 c row (m.readBytes (a + row) n) =
      c.hits ((List.range' row n).flatMap fun r => rowHits height x0 y0 r (m.read (a + r)) (List.range 8)) := by
  induction n generalizing c row with
  | zero => rfl
  | succ n ih =>
    rw [Memory.readBytes, Canvas.drawRows, Nat.add_assoc, ih, Canvas.drawCols_eq_hits, List.range'_succ,
      List.flatMap_cons, Canvas.hits_append]
    rfl

section
variable (s : State) (x y : Reg) (n : Nat)

/-- The canvas after the sprite at `I` is drawn at `Vx`, `Vy`. -/
def spriteCanvas : Canvas := Canvas.hits (s.fb, false) (spriteHits s x y n)

/-- The sprite at `I` is drawn as its list of hits (43_display R162). -/
theorem blit_indexRun :
    blit s.params.height (s.reg x).toNat (s.reg y).toNat s.fb (indexRun s n) = spriteCanvas s x y n := by
  have h := Canvas.drawRows_eq_hits s.params.height (s.reg x).toNat (s.reg y).toNat s.mem s.i.toNat (s.fb, false) 0 n
  rw [← List.range_eq_range'] at h
  exact h

variable {s}

/-- Every hit is on the screen, each axis wrapped on its own (R163). -/
theorem onScreen_of_mem_spriteHits (hh : 1 ≤ s.params.height) :
    ∀ p ∈ spriteHits s x y n, p.1 < width ∧ p.2 < s.params.height := by
  intro p hp
  obtain ⟨row, -, hrow⟩ := List.mem_flatMap.1 hp
  obtain ⟨col, -, hcol⟩ := List.mem_filterMap.1 hrow
  obtain rfl := Option.some.inj (Option.ite_none_right_eq_some.1 hcol).2
  exact ⟨Nat.mod_lt _ (by decide), Nat.mod_lt _ hh⟩

/-! ### DRW -/

theorem flagByte_eq_one_iff (f : Bool) : (if f then 1 else 0 : Byte) = 1 ↔ f = true := by
  cases f <;> decide

variable {x y}

/-- DRW of a sprite that is empty or inside memory: the framebuffer of the canvas, and its flag in VF (R162, R165). -/
theorem exec_drw_of_inRange {n : Fin 16} (h : inRange s.i.toNat n) :
    exec (.drw x y n) s = .next ((s.advance.setFb (spriteCanvas s x y n).1).setReg VF
      (if collisionFlag (spriteCanvas s x y n) then 1 else 0)) := by
  rw [exec_drw, ← blit_indexRun]
  exact complete_ok (if_pos h)

end

/-! ### The statements -/

/-- Settles O32: the next state holds the canvas of the sprite's hits, whose pixels and flag are those of a list of hits
on the screen; a sprite that leaves memory latches the range fault. -/
theorem drawTogglesEachHit : Obligations.DrawTogglesEachHit := by
  intro s x y n hfb hh
  have hscreen := onScreen_of_mem_spriteHits x y n hh
  constructor
  · intro hin
    refine ⟨_, exec_drw_of_inRange hin, Canvas.pixel_hits hfb hscreen, ?_, ?_, rfl, ?_⟩
    · rw [State.reg_setReg_self]
      exact ite_eq_or_eq _ _ _
    · rw [State.reg_setReg_self, flagByte_eq_one_iff]
      exact (Canvas.collision_hits hfb hscreen).trans (or_iff_right Bool.false_ne_true)
    · refine ((onlyChanges_advance s (by simp)).setFb fun px py hp => ?_).setReg (by simp) _
      exact Canvas.pixel_hits_of_not_mem hfb hscreen fun hmem => hp (.inr ⟨_, hmem, rfl⟩)
  · rintro ⟨hn, hout⟩
    exact exec_of_run_lt (exec_drw s x y n) rfl hn hout

/-- Settles O31: the next state holds the empty framebuffer, in which every pixel is off. -/
theorem clearTurnsEveryPixelOff : Obligations.ClearTurnsEveryPixelOff := by
  intro s
  refine ⟨_, exec_cls s, fun px py => ⟨Framebuffer.pixel_nil px py, ?_⟩, rfl, ?_⟩
  · exact if_neg (by simp)
  · exact (onlyChanges_advance s (.inl rfl)).setFb fun px py hp => absurd (.inr ⟨px, py, rfl⟩) hp

end Sys2Proof.Machine
end

section
/-! PROOFS, 44_keys_timers. The key skips are one effect, `skipOnKey`, decided by what `keyIsDown` answers; the key wait
is decided by what `lowestKey` answers; the timer transfers are a pre-advance and then one write. -/

namespace Sys2Proof.Machine

/-! ### Frames of the timer writes -/

section
variable {s t : State} {T : Part → Prop}

theorem OnlyChanges.setDt (h : OnlyChanges T s t) (hdt : T .dt) (b : Byte) : OnlyChanges T s (t.setDt b) := by
  refine h.trans fun p hp => ?_
  cases p with
  | dt => exact absurd hdt hp
  | _ => rfl

theorem OnlyChanges.setSt (h : OnlyChanges T s t) (hst : T .st) (b : Byte) : OnlyChanges T s (t.setSt b) := by
  refine h.trans fun p hp => ?_
  cases p with
  | st => exact absurd hst hp
  | _ => rfl

end

/-! ### The state of a key -/

section
variable {policy : KeyRangePolicy} {kbd : Word} {v : Byte}

/-- The state of the key a value names, where it names one or the policy gives it one (44_keys_timers R180). -/
theorem keyIsDown_eq_ok {d : Bool}
    (h : (v.toNat ≤ 0x0F ∧ d = keyBit kbd v.toNat) ∨
      (0x0F < v.toNat ∧ policy = .lowNibble ∧ d = keyBit kbd (v.toNat % 16)) ∨
      (0x0F < v.toNat ∧ policy = .notPressed ∧ d = false)) : keyIsDown policy kbd v = .ok d := by
  obtain ⟨hv, rfl⟩ | ⟨hv, rfl, rfl⟩ | ⟨hv, rfl, rfl⟩ := h
  · exact if_pos hv
  · exact if_neg hv.not_ge
  · exact if_neg hv.not_ge

/-- A value that names no key raises `KeyIndex` under the policy `fault` (R180). -/
theorem keyIsDown_fault (hv : 0x0F < v.toNat) : keyIsDown .fault kbd v = .error (.keyIndex v) :=
  if_neg hv.not_ge

end

/-! ### The skips on a key -/

section
variable {s : State} {x : Reg} {down : Bool} {i : Instr}

/-- A skip on a key whose state is known (R181, R182). -/
theorem exec_of_keyIsDown_ok (hexec : exec i s = complete (encode i) (fun u => skipOnKey u x down) s) {d : Bool}
    (hkey : keyIsDown s.params.keyRangePolicy s.kbd (s.reg x) = .ok d) :
    exec i s = .next (s.advance.skipIf (d == down)) := by
  refine hexec.trans (complete_ok ?_)
  simp [skipOnKey, hkey]

/-- A skip on a register that names no key, under the policy `fault`: the record is latched, whichever state the skip
asks for (R181, R182). -/
theorem exec_of_keyIsDown_fault (hexec : exec i s = complete (encode i) (fun u => skipOnKey u x down) s)
    (hv : 0x0F < (s.reg x).toNat) (hpolicy : s.params.keyRangePolicy = .fault) :
    exec i s = .next (s.setFault (some ⟨.keyIndex, s.pc, some (encode i), none, some (s.reg x)⟩)) := by
  refine hexec.trans (complete_latches s (r := .keyIndex (s.reg x)) ?_ nofun)
  simp [skipOnKey, hpolicy, keyIsDown_fault hv]

end

/-! ### The key wait -/

/-- A key that is down while no lower one is, is the lowest key: the converse of `lowestKey_eq_some`. -/
theorem lowestKey_of_isLowest {kbd : Word} {k : Reg} (hk : keyBit kbd k = true)
    (hlow : ∀ j < k.val, keyBit kbd j = false) : lowestKey kbd = some k := by
  cases h : lowestKey kbd with
  | none =>
    rw [(lowestKey_eq_none kbd).1 h] at hk
    simp [keyBit] at hk
  | some q =>
    obtain ⟨hq, hqlow⟩ := lowestKey_eq_some h
    have hqk : ¬ q.val < k.val := fun hlt => Bool.eq_false_iff.1 (hlow q hlt) hq
    have hkq : ¬ k.val < q.val := fun hlt => Bool.eq_false_iff.1 (hqlow k hlt) hk
    exact congrArg some (Fin.ext (by omega))

theorem keyValue_toNat (k : Reg) : (keyValue k).toNat = k.val :=
  (BitVec.toNat_ofNat _ _).trans (Nat.mod_eq_of_lt (k.isLt.trans (by decide)))

/-- Going back to the instruction undoes the pre-advance, also where `PC` wraps. -/
@[simp] theorem State.retreat_advance (s : State) : s.advance.retreat = s := by
  have hpc : s.pc + 2 - 2 = s.pc := add_sub_cancel_right _ _
  exact (congrArg s.setPc hpc).trans s.setPc_self

/-! ### The statements -/

/-- Settles O36: what `keyIsDown` answers decides both skips, one effect with the state asked for exchanged. -/
theorem keySkipsFollowTheMask : Obligations.KeySkipsFollowTheMask := by
  intro s x
  constructor
  · intro d hd
    have hkey : keyIsDown s.params.keyRangePolicy s.kbd (s.reg x) = .ok d := keyIsDown_eq_ok hd
    have hskp := exists_next_skipIf s (exec_of_keyIsDown_ok (exec_skp s x) hkey)
    have hsknp := exists_next_skipIf s (exec_of_keyIsDown_ok (exec_sknp s x) hkey)
    cases d <;> exact ⟨hskp, hsknp⟩
  · rintro ⟨hv, hpolicy⟩
    exact ⟨exec_of_keyIsDown_fault (exec_skp s x) hv hpolicy, exec_of_keyIsDown_fault (exec_sknp s x) hv hpolicy⟩

/-- Settles O37: an empty mask has no lowest key, and the pre-advance is undone; otherwise the lowest key's number is
written to `Vx`. -/
theorem keyWaitTakesLowestKey : Obligations.KeyWaitTakesLowestKey := by
  intro s x
  constructor
  · intro hkbd
    rw [exec_ldVxK_none s x ((lowestKey_eq_none s.kbd).2 hkbd), State.retreat_advance]
  · intro k hk hlow
    refine ⟨_, exec_ldVxK_some s x (lowestKey_of_isLowest hk hlow), ?_, rfl, onlyChanges_advance_setReg s x _⟩
    rw [State.reg_setReg_self, keyValue_toNat]

/-- Settles O38: each transfer is one write after the pre-advance, and the timer clock is outside its frame. -/
theorem timerTransfersCopy : Obligations.TimerTransfersCopy := by
  intro s x
  have hadvance : ∀ p, OnlyChanges (· ∈ [Part.pc, p]) s s.advance := fun p => onlyChanges_advance s (by simp)
  exact ⟨⟨_, exec_ldVxDt s x, State.reg_setReg_self _ _ _, rfl, onlyChanges_advance_setReg s x _⟩,
    ⟨_, exec_ldDtVx s x, rfl, rfl, (hadvance .dt).setDt (by simp) _⟩,
    ⟨_, exec_ldStVx s x, rfl, rfl, (hadvance .st).setSt (by simp) _⟩⟩

end Sys2Proof.Machine
end

section
/-! PROOFS, 60_exceptions. An instruction either leaves the latch, the mask and the timer clock alone or has its fault
taken, and a step that reports a fault is one taking of that fault; a timer update is one decay and one write of the timer
clock; a load is one run of bytes. -/

namespace Sys2Proof.Machine

/-! ### Taking a fault -/

section
variable (s : State) {f : Raise} (op : Option Word)

/-- An unimplemented word under `UNIMPL_POLICY = reset` (60_exceptions R206). -/
theorem State.takeFault_of_reset (h : f = .unimplemented ∧ s.params.unimplPolicy = .reset) :
    s.takeFault f op = s.resetOp := if_pos h

/-- Any other fault, and any under `UNIMPL_POLICY = halt` (R205, R206). -/
theorem State.takeFault_of_not_reset (h : ¬ (f = .unimplemented ∧ s.params.unimplPolicy = .reset)) :
    s.takeFault f op = s.setFault (some (f.record s.pc op)) := if_neg h

theorem Raise.record_kind_eq_unimplemented (f : Raise) (pc : Word) :
    (f.record pc op).kind = .unimplemented ↔ f = .unimplemented := by
  cases f <;> simp [Raise.record]

end

/-! ### What every instruction leaves to the host -/

/-- The fields no instruction writes: the mask, the timer clock, the latch and the parameters (10_state R40, R43, R44). -/
structure LeavesHostFields (s t : State) : Prop where
  kbd : t.kbd = s.kbd
  tmrEpoch : t.tmrEpoch = s.tmrEpoch
  tmrDone : t.tmrDone = s.tmrDone
  fault : t.fault = s.fault
  params : t.params = s.params

/-- An effect gives a state that leaves the host's fields, or raises a fault other than `Unimplemented`. -/
def YieldsOrRaises (u : State) (e : Except Raise State) : Prop :=
  (∃ t, e = .ok t ∧ LeavesHostFields u t) ∨ ∃ f, e = .error f ∧ f ≠ .unimplemented

/-- An instruction ends in a state that leaves the host's fields, or in the taking of a fault other than
`Unimplemented`. -/
def RunsOrFaults (s : State) (op : Word) (o : Host.Outcome State Fault Refusal) : Prop :=
  (∃ t, o = .next t ∧ LeavesHostFields s t) ∨ ∃ f, o = .next (s.takeFault f (some op)) ∧ f ≠ .unimplemented

section
variable (u : State)

theorem popPc_yieldsOrRaises : YieldsOrRaises u u.popPc := by
  unfold State.popPc
  split
  · exact .inl ⟨_, rfl, rfl, rfl, rfl, rfl, rfl⟩
  · exact .inr ⟨_, rfl, nofun⟩

theorem pushPc_yieldsOrRaises (a : Word) : YieldsOrRaises u (u.pushPc a) := by
  unfold State.pushPc
  split
  · exact .inl ⟨_, rfl, rfl, rfl, rfl, rfl, rfl⟩
  · exact .inr ⟨_, rfl, nofun⟩

theorem checkRange_yieldsOrRaises (a n : Nat) {t : State} (h : LeavesHostFields u t) :
    YieldsOrRaises u (checkRange a n t) := by
  obtain ⟨-, hok⟩ | ⟨-, herror⟩ := checkRange_cases a n t
  · exact .inl ⟨t, hok, h⟩
  · exact .inr ⟨_, herror, nofun⟩

theorem storeAtIndex_yieldsOrRaises (bytes : List Byte) : YieldsOrRaises u (storeAtIndex u bytes) :=
  checkRange_yieldsOrRaises u _ _ ⟨rfl, rfl, rfl, rfl, rfl⟩

theorem loadRegsFrom_leavesHostFields (j : Nat) (l : List Byte) (hj : j + l.length ≤ 16) :
    LeavesHostFields u (u.loadRegsFrom j l) := by
  obtain ⟨v, hv, -⟩ := u.loadRegsFrom_eq j l hj
  rw [hv]
  exact ⟨rfl, rfl, rfl, rfl, rfl⟩

theorem skipIf_leavesHostFields (c : Bool) : LeavesHostFields u (u.skipIf c) := by
  rw [State.skipIf_eq]
  exact ⟨rfl, rfl, rfl, rfl, rfl⟩

/-- A key's state is known, or `KeyIndex` is raised (44_keys_timers R180). -/
theorem keyIsDown_cases (policy : KeyRangePolicy) (kbd : Word) (v : Byte) :
    (∃ d, keyIsDown policy kbd v = .ok d) ∨ keyIsDown policy kbd v = .error (.keyIndex v) := by
  unfold keyIsDown
  split
  · exact .inl ⟨_, rfl⟩
  · cases policy with
    | fault => exact .inr rfl
    | lowNibble | notPressed => exact .inl ⟨_, rfl⟩

theorem skipOnKey_yieldsOrRaises (x : Reg) (down : Bool) : YieldsOrRaises u (skipOnKey u x down) := by
  obtain ⟨d, hd⟩ | hraise := keyIsDown_cases u.params.keyRangePolicy u.kbd (u.reg x)
  · exact .inl ⟨u.skipIf (d == down), by simp [skipOnKey, hd], skipIf_leavesHostFields u _⟩
  · exact .inr ⟨.keyIndex (u.reg x), by simp only [skipOnKey, hraise], nofun⟩

end

section
variable {s : State}

/-- The pre-advance leaves the host's fields. -/
theorem LeavesHostFields.of_advance {t : State} (h : LeavesHostFields s.advance t) : LeavesHostFields s t :=
  ⟨h.kbd, h.tmrEpoch, h.tmrDone, h.fault, h.params⟩

/-- An instruction around an effect ends as its effect does. -/
theorem runsOrFaults_of_complete {op : Word} {body : State → Except Raise State}
    {o : Host.Outcome State Fault Refusal} (hexec : o = complete op body s)
    (hbody : YieldsOrRaises s.advance (body s.advance)) : RunsOrFaults s op o := by
  obtain ⟨t, hok, hleaves⟩ | ⟨f, herror, hf⟩ := hbody
  · exact .inl ⟨t, hexec.trans (complete_ok hok), hleaves.of_advance⟩
  · exact .inr ⟨f, hexec.trans (complete_error herror), hf⟩

end

/-- What an instruction can do to the fields of the host (60_exceptions R200, R204). The last arm is for the instructions
that raise nothing and end in an update of the pre-advanced state. -/
theorem exec_runsOrFaults (i : Instr) (s : State) : RunsOrFaults s (encode i) (exec i s) := by
  cases i with
  | ret => exact runsOrFaults_of_complete (exec_ret s) (popPc_yieldsOrRaises _)
  | call nnn => exact runsOrFaults_of_complete (exec_call s nnn) (pushPc_yieldsOrRaises _ _)
  | jpV0 nnn =>
    obtain hlt | hle := Nat.lt_or_ge (v0Target s nnn) memSize
    · exact .inl ⟨_, exec_jpV0_of_lt s nnn hlt, rfl, rfl, rfl, rfl, rfl⟩
    · exact .inr ⟨.memoryRange (v0Target s nnn), exec_jpV0_of_le s nnn hle, nofun⟩
  | drw x y n =>
    exact runsOrFaults_of_complete (exec_drw s x y n) (checkRange_yieldsOrRaises _ _ _ ⟨rfl, rfl, rfl, rfl, rfl⟩)
  | ldBVx x => exact runsOrFaults_of_complete (exec_ldBVx s x) (storeAtIndex_yieldsOrRaises _ _)
  | ldMemVx x => exact runsOrFaults_of_complete (exec_ldMemVx s x) (storeAtIndex_yieldsOrRaises _ _)
  | ldVxMem x =>
    have hload := loadRegsFrom_leavesHostFields s.advance 0 (indexRun s.advance (x + 1)) (by simp)
    exact runsOrFaults_of_complete (exec_ldVxMem s x) (checkRange_yieldsOrRaises _ _ _ hload)
  | skp x => exact runsOrFaults_of_complete (exec_skp s x) (skipOnKey_yieldsOrRaises _ _ _)
  | sknp x => exact runsOrFaults_of_complete (exec_sknp s x) (skipOnKey_yieldsOrRaises _ _ _)
  | ldVxK x =>
    cases hkey : lowestKey s.kbd with
    | none => exact .inl ⟨_, exec_ldVxK_none s x hkey, rfl, rfl, rfl, rfl, rfl⟩
    | some k => exact .inl ⟨_, exec_ldVxK_some s x hkey, rfl, rfl, rfl, rfl, rfl⟩
  | seImm | sneImm | seReg | sneReg =>
    exact .inl ⟨_, rfl, (skipIf_leavesHostFields _ _).of_advance⟩
  | _ => exact .inl ⟨_, rfl, rfl, rfl, rfl, rfl, rfl⟩

/-- Only RND uses the draw (30_encoding R91), and RND raises nothing. -/
theorem execWith_eq_or (d : Byte) (i : Instr) (s : State) :
    execWith d i s = exec i s ∨ ∃ t, execWith d i s = .next t ∧ LeavesHostFields s t := by
  by_cases hrnd : ∃ x kk, i = .rnd x kk
  · obtain ⟨x, kk, rfl⟩ := hrnd
    exact .inr ⟨_, execWith_rnd d x kk s, rfl, rfl, rfl, rfl, rfl⟩
  · exact .inl (execWith_of_ne d s fun x kk hi => hrnd ⟨x, kk, hi⟩)

theorem execWith_runsOrFaults (d : Byte) (i : Instr) (s : State) : RunsOrFaults s (encode i) (execWith d i s) := by
  obtain heq | hleaves := execWith_eq_or d i s
  · exact heq ▸ exec_runsOrFaults i s
  · exact .inl hleaves

/-! ### A step that reports a fault -/

section
variable {s : State} {d : Byte} {r : FaultRecord} (run : Instr → State → Host.Outcome State Fault Refusal)

theorem cycle_of_fetch_error {f : Raise} (hlatch : s.fault = none) (hfetch : fetch s = .error f) :
    cycle run s = .next (s.takeFault f none) := by
  simp [cycle, hlatch, hfetch]

theorem cycle_of_decode_none {op : Word} (hlatch : s.fault = none) (hfetch : fetch s = .ok op)
    (hdecode : decode op = none) : cycle run s = .next (s.takeFault .unimplemented (some op)) := by
  simp [cycle, hlatch, hfetch, hdecode]

theorem cycle_of_decode_some {op : Word} {i : Instr} (hlatch : s.fault = none) (hfetch : fetch s = .ok op)
    (hdecode : decode op = some i) : cycle run s = run i s := by
  simp [cycle, hlatch, hfetch, hdecode]

/-- An instruction that reports a fault takes that fault, whatever the draw (60_exceptions R204). -/
theorem execReport_raised {i : Instr} (hlatch : s.fault = none) (h : execReport d i s = .raised r) :
    ∃ f op, r = f.record s.pc op ∧ exec i s = .next (s.takeFault f op) ∧ execWith d i s = exec i s := by
  have hok : ∀ t, execWith d i s = .next t → ¬ LeavesHostFields s t := by
    intro t ht hleaves
    simp [execReport, ht, hleaves.fault, hlatch] at h
  obtain heq | ⟨t, ht, hleaves⟩ := execWith_eq_or d i s
  · obtain ⟨t, ht, hleaves⟩ | ⟨f, hf, hne⟩ := exec_runsOrFaults i s
    · exact absurd hleaves (hok t (heq.trans ht))
    · simp only [execReport, heq, hf, s.takeFault_latch _ hne, State.setFault_fault, HostResult.raised.injEq] at h
      exact ⟨f, _, h.symm, hf, heq⟩
  · exact absurd hleaves (hok t ht)

/-- A step that reports a fault takes that fault from the state before it, whatever the draw (R204). -/
theorem stepReport_raised (h : stepReport d s = .raised r) :
    ∃ f op, r = f.record s.pc op ∧ step s = .next (s.takeFault f op) ∧ stepWith d s = step s := by
  cases hlatch : s.fault with
  | some f => simp [stepReport, hlatch] at h
  | none =>
    cases hfetch : fetch s with
    | error f =>
      simp only [stepReport, hlatch, hfetch, HostResult.raised.injEq] at h
      have hcycle := fun run => cycle_of_fetch_error run hlatch hfetch
      exact ⟨f, none, h.symm, hcycle _, (hcycle _).trans (hcycle _).symm⟩
    | ok op =>
      cases hdecode : decode op with
      | none =>
        simp only [stepReport, hlatch, hfetch, hdecode, HostResult.raised.injEq] at h
        have hcycle := fun run => cycle_of_decode_none run hlatch hfetch hdecode
        exact ⟨.unimplemented, some op, h.symm, hcycle _, (hcycle _).trans (hcycle _).symm⟩
      | some i =>
        simp only [stepReport, hlatch, hfetch, hdecode] at h
        obtain ⟨f, op', hr, hf, heq⟩ := execReport_raised hlatch h
        have hcycle := fun run => cycle_of_decode_some run hlatch hfetch hdecode
        exact ⟨f, op', hr, (hcycle _).trans hf, (hcycle _).trans (heq.trans (hcycle _).symm)⟩

end

/-! ### The mask over a step -/

section
variable {s : State}

/-- Taking a fault keeps the mask, unless it resets the core. -/
theorem kbd_takeFault (f : Raise) (op : Option Word) :
    (s.takeFault f op).kbd = s.kbd ∨ s.takeFault f op = s.resetOp := by
  obtain ⟨hlatch, -⟩ | ⟨hreset, -⟩ := s.takeFault_cases f op
  · exact .inl (hlatch ▸ rfl)
  · exact .inr hreset

/-- A cycle keeps the mask, unless it resets the core (10_state R40, 60_exceptions R206). -/
theorem kbd_cycle {run : Instr → State → Host.Outcome State Fault Refusal}
    (hrun : ∀ i, RunsOrFaults s (encode i) (run i s)) {t : State} (h : cycle run s = .next t) :
    t.kbd = s.kbd ∨ t = s.resetOp := by
  obtain ⟨r, -, hhalt⟩ | ⟨-, -, hrange⟩ | ⟨op, -, -, -, -, hunimpl⟩ | ⟨op, i, -, -, -, -, hinstr⟩ := cycle_cases run s
  · cases h.symm.trans hhalt
  · cases h.symm.trans hrange
    exact .inl rfl
  · cases h.symm.trans hunimpl
    exact kbd_takeFault _ _
  · obtain ⟨u, hu, hleaves⟩ | ⟨f, hf, -⟩ := hrun i
    · cases h.symm.trans (hinstr.trans hu)
      exact .inl hleaves.kbd
    · cases h.symm.trans (hinstr.trans hf)
      exact kbd_takeFault _ _

theorem kbd_afterStep (d : Byte) : (s.afterStep d).kbd = s.kbd ∨ s.afterStep d = s.resetOp := by
  unfold State.afterStep
  split
  case h_1 t h => exact kbd_cycle (fun i => execWith_runsOrFaults d i s) h
  case h_2 | h_3 => exact .inl rfl

end

/-! ### Frames of the host's writes -/

section
variable (s : State)

theorem OnlyChanges.refl (T : Part → Prop) : OnlyChanges T s s := by
  intro p _
  cases p <;> rfl

/-- The frame of a write of the timer clock. -/
theorem onlyChanges_setTimerClock (epoch : Option Nat) (done : Nat) :
    OnlyChanges (· ∈ [Part.dt, .st, .tmrEpoch, .tmrDone]) s (s.setTimerClock epoch done) := by
  intro p hp
  cases p with
  | tmrEpoch | tmrDone => simp at hp
  | _ => rfl

/-- The frame of an update that reaches the accounting. -/
theorem onlyChanges_decay_setTimerClock (k : Nat) (epoch : Option Nat) (done : Nat) :
    OnlyChanges (· ∈ [Part.dt, .st, .tmrEpoch, .tmrDone]) s ((s.decay k).setTimerClock epoch done) := by
  have hdecay : OnlyChanges (· ∈ [Part.dt, .st, .tmrEpoch, .tmrDone]) s (s.decay k) :=
    ((OnlyChanges.refl s _).setDt (by simp) _).setSt (by simp) _
  exact hdecay.trans (onlyChanges_setTimerClock _ epoch done)

theorem onlyChanges_setKbd (m : Word) : OnlyChanges (· ∈ [Part.kbd]) s (s.setKbd m) := by
  intro p hp
  cases p with
  | kbd => exact absurd (List.mem_singleton_self _) hp
  | _ => rfl

/-- The frame of a load: the run of its bytes. -/
theorem onlyChanges_writeBytes (a : Nat) (l : List Byte) :
    OnlyChanges (fun p => ∃ k, k < l.length ∧ p = .byte (a + k)) s (s.setMem (s.mem.writeBytes a l)) :=
  (OnlyChanges.refl s _).setMem fun _ hb =>
    Memory.read_writeBytes_ne s.mem l fun k hk hbk => hb ⟨k, hk, congrArg Part.byte hbk⟩

end

/-! ### The timer update -/

section
variable (s : State)

/-- A timer is taken down by the count, to 0 at the least (60_exceptions R215). -/
theorem decayed_toNat (b : Byte) (k : Nat) : (decayed b k).toNat = b.toNat - k :=
  (BitVec.toNat_ofNat _ _).trans (Nat.mod_eq_of_lt ((Nat.sub_le _ _).trans_lt b.isLt))

/-- An update while the clock is not started (R213). -/
theorem State.timerUpdate_of_none (now : Nat) (h : s.tmrEpoch = none) :
    s.timerUpdate now = s.setTimerClock (some now) 0 := by
  simp only [State.timerUpdate, h]

/-- A timestamp from before the epoch counts no time (R214). -/
theorem State.timerUpdate_of_lt {epoch now : Nat} (h : s.tmrEpoch = some epoch) (hlt : now < epoch) :
    s.timerUpdate now = s := by
  simp only [State.timerUpdate, h, if_pos hlt]

theorem State.timerUpdate_of_driftFree {epoch now : Nat} (h : s.tmrEpoch = some epoch) (hle : epoch ≤ now)
    (hacc : s.params.timerAccounting = .driftFree) : s.timerUpdate now = s.updateDriftFree epoch now := by
  simp only [State.timerUpdate, h, if_neg hle.not_gt, hacc]

theorem State.timerUpdate_of_anchorNow {epoch now : Nat} (h : s.tmrEpoch = some epoch) (hle : epoch ≤ now)
    (hacc : s.params.timerAccounting = .anchorNow) : s.timerUpdate now = s.updateAnchorNow epoch now := by
  simp only [State.timerUpdate, h, if_neg hle.not_gt, hacc]

/-- The latch is neither read nor written by a timer update (R225). -/
theorem State.timerUpdate_setFault (f : Option FaultRecord) (now : Nat) :
    (s.setFault f).timerUpdate now = (s.timerUpdate now).setFault f := by
  simp only [State.timerUpdate, State.setFault_tmrEpoch, State.setFault_params]
  cases s.tmrEpoch with
  | none => rfl
  | some epoch =>
    by_cases hlt : now < epoch
    · simp only [if_pos hlt]
    · simp only [if_neg hlt]
      cases s.params.timerAccounting <;> rfl

theorem State.timerUpdate_kbd (now : Nat) : (s.timerUpdate now).kbd = s.kbd := by
  unfold State.timerUpdate
  split
  · rfl
  · split
    · rfl
    · split <;> rfl

end

/-! ### The mask and the loads -/

section
variable (s : State)

/-- The one bit of a key's mask. -/
theorem getLsbD_keyMask (k : Reg) (j : Nat) : (1#16 <<< k.val).getLsbD j = decide (j = k.val) := by
  rw [← BitVec.twoPow_eq, BitVec.getLsbD_twoPow]
  simp [eq_comm]

theorem getLsbD_keyDown (k : Reg) (j : Nat) :
    (s.keyDown k).kbd.getLsbD j = if j = k.val then true else s.kbd.getLsbD j := by
  simp only [State.keyDown, State.setKbd_kbd, BitVec.getLsbD_or, getLsbD_keyMask]
  by_cases hj : j = k.val <;> simp [hj]

theorem getLsbD_keyUp (k : Reg) {j : Nat} (hlt : j < 16) :
    (s.keyUp k).kbd.getLsbD j = if j = k.val then false else s.kbd.getLsbD j := by
  simp only [State.keyUp, State.setKbd_kbd, BitVec.getLsbD_and, BitVec.getLsbD_not, getLsbD_keyMask, hlt]
  by_cases hj : j = k.val <;> simp [hj]

theorem State.loadRom_kbd (rom : List Byte) : (s.loadRom rom).kbd = s.kbd := by
  unfold State.loadRom
  split <;> rfl

/-- A ROM that fits is written, and the load answers so (R221). -/
theorem hostOp_loadRom_of_fits {rom : List Byte} (h : romFits rom) :
    hostOp (.loadRom rom) s = (s.setMem (s.mem.writeBytes progBase rom), .ok) := by
  simp only [hostOp, State.loadRom, if_pos h]

/-- A ROM that does not fit is refused whole (R221). -/
theorem hostOp_loadRom_of_not_fits {rom : List Byte} (h : ¬ romFits rom) :
    hostOp (.loadRom rom) s = (s, .loadRefused) := by
  simp only [hostOp, State.loadRom, if_neg h]

end

/-! ### The statements -/

/-- Settles O4: the step takes `Unimplemented`, which the policy turns into a latched record or a reset. -/
theorem unimplementedWordFollowsPolicy : Obligations.UnimplementedWordFollowsPolicy := by
  intro s op hlatch hfetch hdecode
  have hstep : step s = .next (s.takeFault .unimplemented (some op)) :=
    cycle_of_decode_none exec hlatch hfetch hdecode
  refine ⟨fun d => ?_, fun hhalt => ?_, fun hreset => ⟨?_, rfl⟩⟩
  · simp only [stepReport, hlatch, hfetch, hdecode, Raise.record]
  · rw [hstep, s.takeFault_of_not_reset _ (by simp [hhalt])]
    rfl
  · rw [hstep, s.takeFault_of_reset _ ⟨rfl, hreset⟩]
    rfl

/-- Settles O6: a step that reports a fault is one taking of that fault, with the record's kind deciding as the fault
does. -/
theorem faultingStepIsPrecise : Obligations.FaultingStepIsPrecise := by
  intro d s r hr
  obtain ⟨f, op, rfl, hstep, hdraw⟩ := stepReport_raised hr
  rw [Raise.record_kind_eq_unimplemented, hdraw, hstep]
  exact ⟨Raise.record_pc f s.pc op, rfl, fun h => congrArg _ (s.takeFault_of_reset op h),
    fun h => congrArg _ (s.takeFault_of_not_reset op h)⟩

/-- Settles O7: no operation but `step` and `reset` reads or writes the latch. -/
theorem hostOpsIgnoreLatch : Obligations.HostOpsIgnoreLatch := by
  intro s f
  refine ⟨fun o hstep hreset => ?_, rfl, rfl, rfl, ?_⟩
  · cases o with
    | step d => exact absurd rfl (hstep d)
    | reset => exact absurd rfl hreset
    | timerUpdate now => exact ⟨s.timerUpdate_setFault f now, fun _ => rfl⟩
    | keyDown k | keyUp k => exact ⟨rfl, fun _ => rfl⟩
    | loadFont bytes => exact ⟨rfl, fun _ => rfl⟩
    | loadRom rom =>
      by_cases hfits : romFits rom
      · rw [hostOp_loadRom_of_fits _ hfits, hostOp_loadRom_of_fits _ hfits]
        exact ⟨rfl, fun _ => rfl⟩
      · rw [hostOp_loadRom_of_not_fits _ hfits, hostOp_loadRom_of_not_fits _ hfits]
        exact ⟨rfl, fun _ => rfl⟩
    | observe => exact ⟨rfl, fun h => absurd rfl h⟩
  · rintro r d rfl
    rfl

/-- Settles O40: no period before the epoch; from it on, one decay by the count of the machine's accounting. -/
theorem timerUpdateCountsPeriods : Obligations.TimerUpdateCountsPeriods := by
  intro s epoch now hepoch
  obtain hlt | hle := Nat.lt_or_ge now epoch
  · exact ⟨s, 0, s.timerUpdate_of_lt hepoch hlt, rfl, rfl, OnlyChanges.refl s _, fun _ => ⟨rfl, hepoch, rfl⟩,
      fun h => absurd hlt h.1.not_gt, fun h => absurd hlt h.1.not_gt⟩
  · cases hacc : s.params.timerAccounting with
    | driftFree =>
      exact ⟨_, _, s.timerUpdate_of_driftFree hepoch hle hacc, decayed_toNat _ _, decayed_toNat _ _,
        onlyChanges_decay_setTimerClock s _ _ _, fun h => absurd h hle.not_gt, fun _ => ⟨rfl, rfl, rfl⟩, nofun⟩
    | anchorNow =>
      exact ⟨_, _, s.timerUpdate_of_anchorNow hepoch hle hacc, decayed_toNat _ _, decayed_toNat _ _,
        onlyChanges_decay_setTimerClock s _ _ _, fun h => absurd h hle.not_gt, nofun, fun _ => ⟨rfl, rfl, rfl⟩⟩

/-- Settles O49: a key event writes the mask at the one bit of its key; of the other operations only a step that resets
the core writes the mask. -/
theorem keyEventsChangeOneBit : Obligations.KeyEventsChangeOneBit := by
  intro s k
  refine ⟨fun j hj => ⟨getLsbD_keyDown s k j, getLsbD_keyUp s k hj⟩, onlyChanges_setKbd s _, onlyChanges_setKbd s _,
    fun o hreset hkey => ?_, fun t => kbd_cycle fun i => exec_runsOrFaults i s⟩
  cases o with
  | step d => exact (kbd_afterStep d).imp_right fun h => ⟨⟨d, rfl⟩, h⟩
  | reset => exact absurd rfl hreset
  | timerUpdate now => exact .inl (s.timerUpdate_kbd now)
  | keyDown j => exact absurd rfl (hkey j).1
  | keyUp j => exact absurd rfl (hkey j).2
  | loadFont bytes => exact .inl rfl
  | loadRom rom => exact .inl (s.loadRom_kbd rom)
  | observe => exact .inl rfl

/-- Settles O50: what the load of a ROM does is decided by whether it fits, which is a length of at most 3584. -/
theorem romIsLoadedOrRefusedWhole : Obligations.RomIsLoadedOrRefusedWhole := by
  intro s rom hmem
  constructor
  · intro hle
    have hrun : progBase + rom.length ≤ memSize := by simp only [progBase, memSize]; omega
    rw [hostOp_loadRom_of_fits s hle]
    exact ⟨rfl, fun k hk => Memory.read_writeBytes_add hmem hrun hk, onlyChanges_writeBytes s progBase rom⟩
  · intro hlt
    exact hostOp_loadRom_of_not_fits s hlt.not_ge

/-- Settles O39: a clock that is not started is the first case of the update. -/
theorem firstTimerUpdateStartsClock : Obligations.FirstTimerUpdateStartsClock :=
  fun s now h => s.timerUpdate_of_none now h

/-- Settles O51: the font is one run of 80 bytes at 0. -/
theorem fontIsLoadedAtZero : Obligations.FontIsLoadedAtZero := by
  intro s font hmem
  have hlength : font.toList.length = 80 := font.length_toList
  constructor
  · intro k
    have hk : k.val < font.toList.length := hlength.symm ▸ k.isLt
    have hread := Memory.read_writeBytes_add hmem (a := 0) (by rw [hlength]; decide) hk
    rwa [Nat.zero_add] at hread
  · have hframe := onlyChanges_writeBytes s 0 font.toList
    simp only [hlength, Nat.zero_add] at hframe
    exact hframe

end Sys2Proof.Machine
end

section
/-! PROOFS, the statements that go across the families. The decoder and the encoder are inverse by the fields of a word.
What an instruction can do is said once (`execWith_runsOrRaises`), and who writes and raises what and the invariant of a
cycle are read off it. With another draw counter every operation runs the same, so none shows it. -/

namespace Sys2Proof

/-! ### Decoding an encoded instruction -/

/-- Decoding the word of an instruction gives it back (30_encoding R84): the group selects the arm, and within a group
the literal nibble or byte does. -/
@[simp] theorem decode_encode (i : Instr) : decode (encode i) = some i := by
  cases i with
  | cls | ret => rfl
  | _ => simp [encode, decode, decodeGroup8, decodeGroupE, decodeGroupF]

theorem decodeBytes_encodeBytes (i : Instr) (rest : List Byte) :
    decodeBytes (encodeBytes i ++ rest) = .ok (i, rest) := by
  simp [encodeBytes, decodeBytes]

/-! ### Encoding a decoded word -/

section
variable {w : Word} {g n : Nibble} {kk : Byte} {i : Instr}

theorem encAddr_of_group (hg : nib0 w = g) : encAddr g (fieldNnn w) = w := hg ▸ encAddr_fields w

theorem encByte_of_group (hg : nib0 w = g) : encByte g (fieldX w) (fieldKk w) = w := hg ▸ encByte_fields w

theorem encByte_of_literal (hg : nib0 w = g) (hkk : fieldKk w = kk) : encByte g (fieldX w) kk = w :=
  hkk ▸ encByte_of_group hg

theorem encRegs_of_group (hg : nib0 w = g) : encRegs g (fieldX w) (fieldY w) (nib3 w) = w := hg ▸ encRegs_fields w

theorem encRegs_of_literal (hg : nib0 w = g) (hn : nib3 w = n) : encRegs g (fieldX w) (fieldY w) n = w :=
  hn ▸ encRegs_of_group hg

theorem encode_of_decodeGroup0 (h : decodeGroup0 w = some i) : encode i = w := by
  unfold decodeGroup0 at h
  split at h
  · cases h
    exact Eq.symm ‹_›
  · split at h
    · cases h
      exact Eq.symm ‹_›
    · cases h

theorem encode_of_decodeGroup8 (hg : nib0 w = 0x8) (h : decodeGroup8 w = some i) : encode i = w := by
  unfold decodeGroup8 at h
  split at h
  case h_10 => cases h
  all_goals
    cases h
    exact encRegs_of_literal hg ‹_›

theorem encode_of_decodeGroupE (hg : nib0 w = 0xE) (h : decodeGroupE w = some i) : encode i = w := by
  unfold decodeGroupE at h
  split at h
  case h_3 => cases h
  all_goals
    cases h
    exact encByte_of_literal hg ‹_›

theorem encode_of_decodeGroupF (hg : nib0 w = 0xF) (h : decodeGroupF w = some i) : encode i = w := by
  unfold decodeGroupF at h
  split at h
  case h_10 => cases h
  all_goals
    cases h
    exact encByte_of_literal hg ‹_›

/-- A word that decodes is the word of what it decodes to, arm by arm of the decoder (30_encoding R84). -/
theorem encode_of_decode (h : decode w = some i) : encode i = w := by
  unfold decode at h
  split at h
  case h_1 => exact encode_of_decodeGroup0 h
  case h_2 hg | h_3 hg | h_11 hg | h_12 hg =>
    cases h
    exact encAddr_of_group hg
  case h_4 hg | h_5 hg | h_7 hg | h_8 hg | h_13 hg =>
    cases h
    exact encByte_of_group hg
  case h_6 hg | h_10 hg =>
    split at h
    · cases h
      exact encRegs_of_literal hg ‹_›
    · cases h
  case h_14 hg =>
    cases h
    exact encRegs_of_group hg
  case h_9 hg => exact encode_of_decodeGroup8 hg h
  case h_15 hg => exact encode_of_decodeGroupE hg h
  case h_16 =>
    have hg : nib0 w = 0xF := by
      clear h
      generalize nib0 w = g at *
      decide +revert
    exact encode_of_decodeGroupF hg h

end

/-! ### The opcode map -/

section
open Laws.EncodeMatchesRow

/-- The word of every instruction matches the row of its mnemonic (30_encoding R84). -/
theorem encode_matches_row (i : Instr) : ∃ r ∈ opcodeMap, r.mnemonic = i.mnemonic ∧ r.matches (encode i) = true := by
  suffices h : Statement i from h.1
  cases i with
  | cls => exact cls
  | ret => exact ret
  | jp nnn => exact jp nnn
  | call nnn => exact call nnn
  | seImm x kk => exact seImm x kk
  | sneImm x kk => exact sneImm x kk
  | seReg x y => exact seReg x y
  | ldImm x kk => exact ldImm x kk
  | addImm x kk => exact addImm x kk
  | ldReg x y => exact ldReg x y
  | orReg x y => exact orReg x y
  | andReg x y => exact andReg x y
  | xorReg x y => exact xorReg x y
  | addReg x y => exact addReg x y
  | sub x y => exact sub x y
  | shr x y => exact shr x y
  | subn x y => exact subn x y
  | shl x y => exact shl x y
  | sneReg x y => exact sneReg x y
  | ldI nnn => exact ldI nnn
  | jpV0 nnn => exact jpV0 nnn
  | rnd x kk => exact rnd x kk
  | drw x y n => exact drw x y n
  | skp x => exact skp x
  | sknp x => exact sknp x
  | ldVxDt x => exact ldVxDt x
  | ldVxK x => exact ldVxK x
  | ldDtVx x => exact ldDtVx x
  | ldStVx x => exact ldStVx x
  | addIVx x => exact addIVx x
  | ldFVx x => exact ldFVx x
  | ldBVx x => exact ldBVx x
  | ldMemVx x => exact ldMemVx x
  | ldVxMem x => exact ldVxMem x

end

section
variable {r : OpcodeRow} {w : Word}

theorem OpcodeRow.matches_iff : r.matches w = true ↔ w &&& r.mask = r.pattern := beq_iff_eq

/-- A field that lies under a row's mask reads in a matching word as in the pattern. -/
theorem extractLsb'_of_matches (h : r.matches w = true) {start len : Nat}
    (hmask : r.mask.extractLsb' start len = BitVec.allOnes len) :
    w.extractLsb' start len = r.pattern.extractLsb' start len := by
  rw [← OpcodeRow.matches_iff.1 h, BitVec.extractLsb'_and, hmask, BitVec.and_allOnes]

/-- Every mask keeps the group, and those of the rows with a literal nibble or byte keep it too. -/
theorem masks_keep_fields :
    (∀ r ∈ opcodeRowsByGroup, nib0 r.mask = BitVec.allOnes 4) ∧
    (∀ r ∈ opcodeRowsByNibble, nib0 r.mask = BitVec.allOnes 4 ∧ nib3 r.mask = BitVec.allOnes 4) ∧
    ∀ r ∈ opcodeRowsByByte, nib0 r.mask = BitVec.allOnes 4 ∧ fieldKk r.mask = BitVec.allOnes 8 := by
  decide

/-- The instructions of the rows that fix the whole word or its group alone. -/
theorem instrs_of_groupRows : ∀ r ∈ opcodeRowsByGroup, w &&& r.mask = r.pattern → nib0 w = nib0 r.pattern →
    ∃ i, encode i = w ∧ i.mnemonic = r.mnemonic := by
  have hall : w &&& 0xFFFF = w := BitVec.and_allOnes
  simp only [opcodeRowsByGroup, List.forall_mem_cons]
  exact ⟨fun h _ => ⟨.cls, h.symm.trans hall, rfl⟩, fun h _ => ⟨.ret, h.symm.trans hall, rfl⟩,
    fun _ hg => ⟨.jp _, encAddr_of_group hg, rfl⟩, fun _ hg => ⟨.call _, encAddr_of_group hg, rfl⟩,
    fun _ hg => ⟨.seImm _ _, encByte_of_group hg, rfl⟩, fun _ hg => ⟨.sneImm _ _, encByte_of_group hg, rfl⟩,
    fun _ hg => ⟨.ldImm _ _, encByte_of_group hg, rfl⟩, fun _ hg => ⟨.addImm _ _, encByte_of_group hg, rfl⟩,
    fun _ hg => ⟨.ldI _, encAddr_of_group hg, rfl⟩, fun _ hg => ⟨.jpV0 _, encAddr_of_group hg, rfl⟩,
    fun _ hg => ⟨.rnd _ _, encByte_of_group hg, rfl⟩, fun _ hg => ⟨.drw _ _ (fieldN w), encRegs_of_group hg, rfl⟩,
    nofun⟩

/-- The instructions of the rows with a literal last nibble. -/
theorem instrs_of_nibbleRows : ∀ r ∈ opcodeRowsByNibble, ∃ f : Reg → Reg → Instr, ∀ x y,
    encode (f x y) = encRegs (nib0 r.pattern) x y (nib3 r.pattern) ∧ (f x y).mnemonic = r.mnemonic := by
  simp only [opcodeRowsByNibble, List.forall_mem_cons]
  exact ⟨⟨.seReg, fun _ _ => ⟨rfl, rfl⟩⟩, ⟨.ldReg, fun _ _ => ⟨rfl, rfl⟩⟩, ⟨.orReg, fun _ _ => ⟨rfl, rfl⟩⟩,
    ⟨.andReg, fun _ _ => ⟨rfl, rfl⟩⟩, ⟨.xorReg, fun _ _ => ⟨rfl, rfl⟩⟩, ⟨.addReg, fun _ _ => ⟨rfl, rfl⟩⟩,
    ⟨.sub, fun _ _ => ⟨rfl, rfl⟩⟩, ⟨.shr, fun _ _ => ⟨rfl, rfl⟩⟩, ⟨.subn, fun _ _ => ⟨rfl, rfl⟩⟩,
    ⟨.shl, fun _ _ => ⟨rfl, rfl⟩⟩, ⟨.sneReg, fun _ _ => ⟨rfl, rfl⟩⟩, nofun⟩

/-- The instructions of the rows with a literal low byte. -/
theorem instrs_of_byteRows : ∀ r ∈ opcodeRowsByByte, ∃ f : Reg → Instr, ∀ x,
    encode (f x) = encByte (nib0 r.pattern) x (fieldKk r.pattern) ∧ (f x).mnemonic = r.mnemonic := by
  simp only [opcodeRowsByByte, List.forall_mem_cons]
  exact ⟨⟨.skp, fun _ => ⟨rfl, rfl⟩⟩, ⟨.sknp, fun _ => ⟨rfl, rfl⟩⟩, ⟨.ldVxDt, fun _ => ⟨rfl, rfl⟩⟩,
    ⟨.ldVxK, fun _ => ⟨rfl, rfl⟩⟩, ⟨.ldDtVx, fun _ => ⟨rfl, rfl⟩⟩, ⟨.ldStVx, fun _ => ⟨rfl, rfl⟩⟩,
    ⟨.addIVx, fun _ => ⟨rfl, rfl⟩⟩, ⟨.ldFVx, fun _ => ⟨rfl, rfl⟩⟩, ⟨.ldBVx, fun _ => ⟨rfl, rfl⟩⟩,
    ⟨.ldMemVx, fun _ => ⟨rfl, rfl⟩⟩, ⟨.ldVxMem, fun _ => ⟨rfl, rfl⟩⟩, nofun⟩

/-- A word that matches a row is the word of an instruction with the row's mnemonic: the converse of
`encode_matches_row`. -/
theorem exists_encode_of_matches (hr : r ∈ opcodeMap) (h : r.matches w = true) :
    ∃ i, encode i = w ∧ i.mnemonic = r.mnemonic := by
  obtain ⟨hgroup, hnibble, hbyte⟩ := masks_keep_fields
  rw [opcodeMap, List.mem_append, List.mem_append] at hr
  obtain (hr | hr) | hr := hr
  · have hg : nib0 w = nib0 r.pattern := extractLsb'_of_matches h (hgroup r hr)
    exact instrs_of_groupRows r hr (OpcodeRow.matches_iff.1 h) hg
  · have hg : nib0 w = nib0 r.pattern := extractLsb'_of_matches h (hnibble r hr).1
    have hn : nib3 w = nib3 r.pattern := extractLsb'_of_matches h (hnibble r hr).2
    obtain ⟨f, hf⟩ := instrs_of_nibbleRows r hr
    obtain ⟨hencode, hmnemonic⟩ := hf (fieldX w) (fieldY w)
    exact ⟨_, hencode.trans (encRegs_of_literal hg hn), hmnemonic⟩
  · have hg : nib0 w = nib0 r.pattern := extractLsb'_of_matches h (hbyte r hr).1
    have hkk : fieldKk w = fieldKk r.pattern := extractLsb'_of_matches h (hbyte r hr).2
    obtain ⟨f, hf⟩ := instrs_of_byteRows r hr
    obtain ⟨hencode, hmnemonic⟩ := hf (fieldX w)
    exact ⟨_, hencode.trans (encByte_of_literal hg hkk), hmnemonic⟩

/-- Two different rows have patterns that differ where both masks look. -/
theorem patterns_disjoint : ∀ r ∈ opcodeMap, ∀ r' ∈ opcodeMap,
    r.pattern &&& r'.mask = r'.pattern &&& r.mask → r = r' := by decide

end

/-! ### The statements about the encoding -/

/-- Settles O8, on the word and, as a word is its two bytes, on the bytes. -/
theorem decodeOfEncode : Obligations.DecodeOfEncode := by
  intro i
  exact ⟨decode_encode i, decodeBytes_encodeBytes i⟩

/-- Settles O9: in every arm of the decoder the word is made up of the fields that the arm reads and its literals. -/
theorem encodeOfDecode : Obligations.EncodeOfDecode := by
  intro w i
  exact encode_of_decode

/-- Settles O10: a word that matches a row is an encoded instruction, and a word that decodes is one too and so matches
a row. -/
theorem decodeFollowsOpcodeMap : Obligations.DecodeFollowsOpcodeMap := by
  intro w
  constructor
  · intro r hr h
    obtain ⟨i, rfl, hi⟩ := exists_encode_of_matches hr h
    exact ⟨i, decode_encode i, hi⟩
  · intro hnone
    cases hi : decode w with
    | none => rfl
    | some i =>
      obtain ⟨r, hr, -, h⟩ := encode_matches_row i
      rw [encode_of_decode hi, hnone r hr] at h
      cases h

/-- Settles O11: under both masks the word reads as either pattern, so the patterns agree there. -/
theorem opcodeRowsAreDisjoint : Obligations.OpcodeRowsAreDisjoint := by
  intro w r r' hr hr' h h'
  apply patterns_disjoint r hr r' hr'
  rw [← OpcodeRow.matches_iff.1 h, ← OpcodeRow.matches_iff.1 h', BitVec.and_assoc, BitVec.and_assoc,
    BitVec.and_comm r.mask]

/-- Settles O12: eight words are those of their instructions, and two are decoded to nothing. -/
theorem wordsDecodeAsTheTableSays : Obligations.WordsDecodeAsTheTableSays :=
  ⟨decode_encode .cls, decode_encode (.call 0x210), decode_encode (.seImm 3 0x42), decode_encode (.shl 2 3),
    decode_encode (.rnd 3 0x0F), decode_encode (.drw 1 2 5), decode_encode (.skp 4), decode_encode (.ldMemVx 2),
    rfl, rfl⟩

end Sys2Proof

namespace Sys2Proof.Machine

/-! ### What an instruction may write and raise -/

/-- A byte of the run of `n` at `I`, inside memory (42_index_memory R140). -/
def InIndexRun (s : State) (n : Nat) (p : Part) : Prop := ∃ k < n, indexAddr s k < memSize ∧ p = .byte (indexAddr s k)

/-- The parts besides `PC` that an instruction may write where it raises nothing (10_state R32, R33, R37, R41; 20_memory
R61). -/
def MayWrite (s : State) (i : Instr) (p : Part) : Prop :=
  match i with
  | .cls => ∃ px py, p = .pixel px py
  | .ret => p = .sp
  | .call _ => p = .sp ∨ ∃ j : Fin 16, s.sp.val = j.val ∧ p = .slot j
  | .jp _ | .jpV0 _ | .seImm _ _ | .sneImm _ _ | .seReg _ _ | .sneReg _ _ | .skp _ | .sknp _ => False
  | .ldImm x _ | .addImm x _ | .ldReg x _ | .orReg x _ | .andReg x _ | .xorReg x _ | .ldVxDt x | .ldVxK x => p = .reg x
  | .addReg x _ | .sub x _ | .shr x _ | .subn x _ | .shl x _ => p = .reg x ∨ p = .reg VF
  | .rnd x _ => p = .reg x ∨ p = .draws
  | .ldI _ | .addIVx _ | .ldFVx _ => p = .i
  | .drw _ _ _ => p = .reg VF ∨ ∃ px py, p = .pixel px py
  | .ldDtVx _ => p = .dt
  | .ldStVx _ => p = .st
  | .ldBVx _ => InIndexRun s 3 p
  | .ldMemVx x => InIndexRun s (x.val + 1) p
  | .ldVxMem x => ∃ k : Reg, k ≤ x ∧ p = .reg k

/-- The faults that an instruction may raise (60_exceptions R200), an offending address outside memory and a register
value above 0x0F (R201). -/
def MayRaise (i : Instr) (f : Raise) : Prop :=
  match i with
  | .ret => f = .stackUnderflow
  | .call _ => f = .stackOverflow
  | .jpV0 _ | .drw _ _ _ | .ldBVx _ | .ldMemVx _ | .ldVxMem _ => ∃ a, memSize ≤ a ∧ f = .memoryRange a
  | .skp _ | .sknp _ => ∃ v : Byte, 0x0F < v.toNat ∧ f = .keyIndex v
  | _ => False

/-- Where `PC` can be after an instruction at `PC` that raises nothing (40_control_flow R100 to R108). -/
inductive NextPc (s : State) : Word → Prop
  | wait : NextPc s s.pc
  | advance : NextPc s (s.pc + 2)
  | skip : NextPc s (s.pc + 4)
  | jump {a : Word} (h : a.toNat < memSize) : NextPc s a
  | pop (j : Fin 16) : NextPc s s.stack[j]

/-- The framebuffer after an instruction that draws (43_display R161, R162). -/
def Draws (i : Instr) (s : State) (f : Framebuffer) : Prop :=
  (i = .cls ∧ f = []) ∨ ∃ x y n, i = .drw x y n ∧ f = (spriteCanvas s x y n).1

/-- What an instruction that raises nothing makes of the state. The frame says which part it may write; memory and the
framebuffer are described as lists besides, whose form the frame does not see. -/
structure Runs (i : Instr) (s t : State) : Prop where
  frame : OnlyChanges (fun p => p = .pc ∨ MayWrite s i p) s t
  pc : NextPc s t.pc
  mem : t.mem = s.mem ∨ ∃ l : List Byte, s.i.toNat + l.length ≤ memSize ∧ t.mem = s.mem.writeBytes s.i.toNat l
  fb : t.fb = s.fb ∨ Draws i s t.fb
  stack : ∀ j : Fin 16, t.stack[j] = s.stack[j] ∨ t.stack[j] = s.pc + 2

/-- An instruction ends in a state of `Runs`, or in the state before it with the record of a fault it may raise latched
(60_exceptions R204). -/
def RunsOrRaises (i : Instr) (s : State) (o : Host.Outcome State Fault Refusal) : Prop :=
  (∃ t, o = .next t ∧ Runs i s t) ∨
    ∃ f, MayRaise i f ∧ o = .next (s.setFault (some (f.record s.pc (some (encode i)))))

/-! ### The shapes of an instruction -/

section
variable {s t : State} {i : Instr}

theorem NextPc.advance_or_skip (s : State) (c : Bool) : NextPc s (s.pc + if c then 4 else 2) := by
  cases c with
  | false => exact .advance
  | true => exact .skip

/-- An instruction that writes neither memory nor the framebuffer nor the stack is described by its frame and its
`PC`. -/
theorem Runs.of_frame (hframe : OnlyChanges (fun p => p = .pc ∨ MayWrite s i p) s t) (hpc : NextPc s t.pc)
    (hmem : t.mem = s.mem := by rfl) (hfb : t.fb = s.fb := by rfl) (hstack : t.stack = s.stack := by rfl) :
    Runs i s t :=
  ⟨hframe, hpc, .inl hmem, .inl hfb, fun _ => .inl (hstack ▸ rfl)⟩

theorem Runs.setPc {a : Word} (h : NextPc s a) : Runs i s (s.setPc a) :=
  .of_frame ((onlyChanges_setPc s a).mono fun _ hp => .inl (List.mem_singleton.1 hp)) h

theorem Runs.skipIf (c : Bool) : Runs i s (s.advance.skipIf c) := by
  rw [State.skipIf_advance]
  exact .setPc (.advance_or_skip s c)

theorem Runs.setReg {x : Reg} (hx : MayWrite s i (.reg x)) (b : Byte) : Runs i s (s.advance.setReg x b) :=
  .of_frame ((onlyChanges_advance s (.inl rfl)).setReg (.inr hx) b) .advance

theorem Runs.setRegFlag {x : Reg} (hx : MayWrite s i (.reg x)) (hVF : MayWrite s i (.reg VF)) (b : Byte) (f : Bool) :
    Runs i s (s.advance.setRegFlag x b f) :=
  .of_frame (((onlyChanges_advance s (.inl rfl)).setReg (.inr hx) b).setReg (.inr hVF) _) .advance

theorem Runs.setI (hi : MayWrite s i .i) (a : Word) : Runs i s (s.advance.setI a) :=
  .of_frame ((onlyChanges_advance s (.inl rfl)).setI (.inr hi) a) .advance

/-- Bytes stored at `I` by an instruction that may write them (42_index_memory R144, R145). -/
theorem Runs.store {bytes : List Byte} (hwrite : ∀ p, InIndexRun s bytes.length p → MayWrite s i p)
    (hin : s.i.toNat + bytes.length ≤ memSize) : Runs i s (s.advance.setMem (s.mem.writeBytes s.i.toNat bytes)) where
  frame := (onlyChanges_advance s (.inl rfl)).setMem fun a ha =>
    Memory.read_writeBytes_ne s.mem bytes fun k hk hak =>
      ha (.inr (hwrite _ ⟨k, hk, by simp only [indexAddr]; omega, congrArg Part.byte hak⟩))
  pc := .advance
  mem := .inr ⟨bytes, hin, rfl⟩
  fb := .inl rfl
  stack := fun _ => .inl rfl

/-- The registers up to `Vx` loaded from the run at `I` (R146). -/
theorem Runs.load {x : Reg} : Runs (.ldVxMem x) s (s.advance.loadRegsFrom 0 (indexRun s (x + 1))) := by
  have hframe := onlyChanges_loadRegsFrom_indexRun s x
  obtain ⟨v, hv, -⟩ := s.advance.loadRegsFrom_eq 0 (indexRun s (x + 1)) (by simp)
  rw [hv] at hframe ⊢
  exact .of_frame hframe .advance

/-- The framebuffer cleared (43_display R161). -/
theorem Runs.cls : Runs .cls s (s.advance.setFb []) where
  frame := (onlyChanges_advance s (.inl rfl)).setFb fun px py hp => absurd (.inr ⟨px, py, rfl⟩) hp
  pc := .advance
  mem := .inl rfl
  fb := .inr (.inl ⟨rfl, rfl⟩)
  stack := fun _ => .inl rfl

/-- A sprite drawn, whatever its flag (R162). -/
theorem Runs.drw {x y : Reg} {n : Fin 16} (b : Byte) :
    Runs (.drw x y n) s ((s.advance.setFb (spriteCanvas s x y n).1).setReg VF b) where
  frame := ((onlyChanges_advance s (.inl rfl)).setFb fun px py hp =>
    absurd (.inr (.inr ⟨px, py, rfl⟩)) hp).setReg (.inr (.inl rfl)) b
  pc := .advance
  mem := .inl rfl
  fb := .inr (.inr ⟨x, y, n, rfl, rfl⟩)
  stack := fun _ => .inl rfl

theorem ret_runsOrRaises (s : State) : RunsOrRaises .ret s (exec .ret s) := by
  obtain hzero | ⟨j, hj⟩ : s.sp.val = 0 ∨ ∃ j : Fin 16, s.sp.val = j.val + 1 := by
    cases h : s.sp.val with
    | zero => exact .inl rfl
    | succ d => exact .inr ⟨⟨d, by omega⟩, rfl⟩
  · exact .inr ⟨.stackUnderflow, rfl, exec_ret_of_zero s hzero⟩
  · have hframe := (onlyChanges_pc_sp s s.stack[j] j.castSucc).mono (T' := fun p => p = .pc ∨ MayWrite s .ret p)
      (by simp [MayWrite])
    exact .inl ⟨_, exec_ret_of_succ s hj, .of_frame hframe (.pop j)⟩

theorem call_runsOrRaises (s : State) (nnn : Addr12) : RunsOrRaises (.call nnn) s (exec (.call nnn) s) := by
  obtain hlt | hfull := Nat.lt_or_eq_of_le (Nat.le_of_lt_succ s.sp.isLt)
  · have hj : s.sp.val = (⟨s.sp.val, hlt⟩ : Fin 16).val := rfl
    refine .inl ⟨_, exec_call_of_lt s nnn hj, ?_, .jump ((addrWord_toNat nnn).trans_lt nnn.isLt), .inl rfl, .inl rfl,
      fun k => ?_⟩
    · exact (onlyChanges_pc_sp_slot s ⟨s.sp.val, hlt⟩ _ _ _).mono (by simp [MayWrite])
    · by_cases hk : s.sp.val = k.val
      · exact .inr (by simp [hk])
      · exact .inl (Vector.getElem_set_ne hlt k.isLt hk)
  · exact .inr ⟨.stackOverflow, rfl, exec_call_of_full s nnn hfull⟩

/-- An effect behind a range check at `I` (42_index_memory R140). -/
theorem runsOrRaises_of_checkRange {body : State → Except Raise State} {n : Nat}
    (hexec : exec i s = complete (encode i) body s) (hbody : body s.advance = checkRange (indexAddr s 0) n t)
    (hraise : ∀ a, memSize ≤ a → MayRaise i (.memoryRange a)) (hruns : inRange (indexAddr s 0) n → Runs i s t) :
    RunsOrRaises i s (exec i s) := by
  obtain ⟨hin, hok⟩ | ⟨-, herror⟩ := checkRange_cases (indexAddr s 0) n t
  · exact .inl ⟨t, hexec.trans (complete_ok (hbody.trans hok)), hruns hin⟩
  · exact .inr ⟨_, hraise _ (le_max_right _ _), hexec.trans (complete_latches s (hbody.trans herror) nofun)⟩

/-- A value whose key's state is unknown is above 0x0F (44_keys_timers R180). -/
theorem lt_of_keyIsDown_error {policy : KeyRangePolicy} {kbd : Word} {v : Byte} {f : Raise}
    (h : keyIsDown policy kbd v = .error f) : 0x0F < v.toNat := by
  by_contra hle
  rw [keyIsDown.eq_def, if_pos (by omega)] at h
  cases h

theorem skipOnKey_of_ok {u : State} {x : Reg} {down d : Bool}
    (h : keyIsDown u.params.keyRangePolicy u.kbd (u.reg x) = .ok d) :
    skipOnKey u x down = .ok (u.skipIf (d == down)) := by
  simp only [skipOnKey, h]

theorem skipOnKey_of_error {u : State} {x : Reg} {down : Bool} {f : Raise}
    (h : keyIsDown u.params.keyRangePolicy u.kbd (u.reg x) = .error f) : skipOnKey u x down = .error f := by
  simp only [skipOnKey, h]

/-- A skip on a key (44_keys_timers R181, R182). -/
theorem skipOnKey_runsOrRaises {x : Reg} {down : Bool}
    (hexec : exec i s = complete (encode i) (fun u => skipOnKey u x down) s)
    (hraise : ∀ v : Byte, 0x0F < v.toNat → MayRaise i (.keyIndex v)) : RunsOrRaises i s (exec i s) := by
  obtain ⟨d, hd⟩ | herror := keyIsDown_cases s.params.keyRangePolicy s.kbd (s.reg x)
  · exact .inl ⟨_, exec_of_keyIsDown_ok hexec hd, .skipIf _⟩
  · have hskip : skipOnKey s.advance x down = .error (.keyIndex (s.reg x)) := skipOnKey_of_error herror
    exact .inr ⟨_, hraise _ (lt_of_keyIsDown_error herror), hexec.trans (complete_latches s hskip nofun)⟩

end

/-- What any instruction, with any draw, can do (30_encoding R91). The statements about who writes and who raises what,
and the invariant, rest on this one case split. -/
theorem execWith_runsOrRaises (d : Byte) (i : Instr) (s : State) : RunsOrRaises i s (execWith d i s) := by
  cases i with
  | cls => exact .inl ⟨_, exec_cls s, .cls⟩
  | ret => exact ret_runsOrRaises s
  | jp nnn => exact .inl ⟨_, exec_jp s nnn, .setPc (.jump ((addrWord_toNat nnn).trans_lt nnn.isLt))⟩
  | call nnn => exact call_runsOrRaises s nnn
  | seImm | sneImm | seReg | sneReg => exact .inl ⟨_, rfl, .skipIf _⟩
  | jpV0 nnn =>
    obtain hlt | hle := Nat.lt_or_ge (v0Target s nnn) memSize
    · have hword : (BitVec.ofNat 16 (v0Target s nnn)).toNat < memSize :=
        (BitVec.toNat_ofNat _ _).trans_lt ((Nat.mod_le _ _).trans_lt hlt)
      exact .inl ⟨_, exec_jpV0_of_lt s nnn hlt, .setPc (.jump hword)⟩
    · exact .inr ⟨_, ⟨_, hle, rfl⟩, exec_jpV0_of_le s nnn hle⟩
  | ldImm | addImm | ldReg | orReg | andReg | xorReg | ldVxDt => exact .inl ⟨_, rfl, .setReg (by rfl) _⟩
  | addReg | sub | shr | subn | shl => exact .inl ⟨_, rfl, .setRegFlag (by exact .inl rfl) (by exact .inr rfl) _ _⟩
  | rnd x kk =>
    have hframe := (onlyChanges_advance_loadRandom s x d kk).mono (T' := fun p => p = .pc ∨ MayWrite s (.rnd x kk) p)
      (by simp [MayWrite])
    exact .inl ⟨_, rfl, .of_frame hframe .advance⟩
  | ldI | addIVx | ldFVx => exact .inl ⟨_, rfl, .setI (by rfl) _⟩
  | drw x y n =>
    by_cases hin : inRange s.i.toNat n
    · exact .inl ⟨_, exec_drw_of_inRange hin, .drw _⟩
    · obtain ⟨hn, hout⟩ := not_or.1 hin
      exact .inr ⟨.memoryRange (firstBad s.i.toNat), ⟨_, le_max_right _ _, rfl⟩,
        exec_of_run_lt (exec_drw s x y n) rfl hn (Nat.lt_of_not_le hout)⟩
  | skp x => exact skipOnKey_runsOrRaises (exec_skp s x) fun v hv => ⟨v, hv, rfl⟩
  | sknp x => exact skipOnKey_runsOrRaises (exec_sknp s x) fun v hv => ⟨v, hv, rfl⟩
  | ldVxK x =>
    cases hkey : lowestKey s.kbd with
    | none => exact .inl ⟨_, exec_ldVxK_none s x hkey, s.retreat_advance.symm ▸ .setPc .wait⟩
    | some k => exact .inl ⟨_, exec_ldVxK_some s x hkey, .setReg (by rfl) _⟩
  | ldDtVx x => exact .inl ⟨_, rfl, .of_frame ((onlyChanges_advance s (.inl rfl)).setDt (.inr rfl) _) .advance⟩
  | ldStVx x => exact .inl ⟨_, rfl, .of_frame ((onlyChanges_advance s (.inl rfl)).setSt (.inr rfl) _) .advance⟩
  | ldBVx x =>
    exact runsOrRaises_of_checkRange (exec_ldBVx s x) rfl (fun a ha => ⟨a, ha, rfl⟩) fun hin =>
      .store (fun _ hp => hp) (hin.resolve_left nofun)
  | ldMemVx x =>
    have hlength : (s.regsUpTo x).length = x.val + 1 := s.length_regsUpTo x
    have hwrite : ∀ p, InIndexRun s (s.regsUpTo x).length p → MayWrite s (.ldMemVx x) p := by
      rw [hlength]
      exact fun _ hp => hp
    exact runsOrRaises_of_checkRange (exec_ldMemVx s x) rfl (fun a ha => ⟨a, ha, rfl⟩) fun hin =>
      .store hwrite (hin.resolve_left (hlength ▸ x.val.succ_ne_zero))
  | ldVxMem x =>
    exact runsOrRaises_of_checkRange (exec_ldVxMem s x) rfl (fun a ha => ⟨a, ha, rfl⟩) fun _ => .load

theorem exec_runsOrRaises (i : Instr) (s : State) : RunsOrRaises i s (exec i s) :=
  execWith_draw i s ▸ execWith_runsOrRaises (Config.randomByte s.draws) i s

/-! ### What changed says which instruction ran -/

section
variable {i : Instr} {s t : State}

/-- The next state of an instruction: what it ran to, or the state before it with a record latched. -/
theorem runs_or_latched (h : exec i s = .next t) : Runs i s t ∨ ∃ r, t = s.setFault (some r) := by
  obtain ⟨u, hu, hruns⟩ | ⟨f, -, hf⟩ := exec_runsOrRaises i s
  · cases h.symm.trans hu
    exact .inl hruns
  · cases h.symm.trans hf
    exact .inr ⟨_, rfl⟩

theorem unchanged_setFault (s : State) (r : Option FaultRecord) {p : Part} (hp : p ≠ .fault) :
    Unchanged s (s.setFault r) p := by
  cases p with
  | fault => exact absurd rfl hp
  | _ => rfl

/-- A part that an instruction changed, other than `PC` and the latch, is one it may write. -/
theorem mayWrite_of_changed (h : exec i s = .next t) {p : Part} (hpc : p ≠ .pc) (hfault : p ≠ .fault)
    (hp : ¬ Unchanged s t p) : MayWrite s i p := by
  obtain hruns | ⟨r, rfl⟩ := runs_or_latched h
  · by_contra hnot
    exact hp (hruns.frame p (not_or.2 ⟨hpc, hnot⟩))
  · exact absurd (unchanged_setFault s _ hfault) hp

/-- No instruction may write the mask, the timer clock, the latch or the parameters (10_state R40, R43, R44). -/
theorem not_mayWrite_of_mem {p : Part} (hp : p ∈ [Part.kbd, .tmrEpoch, .tmrDone, .fault, .params]) :
    ¬ MayWrite s i p := by
  intro hwrite
  cases i with
  | jp | jpV0 | seImm | sneImm | seReg | sneReg | skp | sknp => exact hwrite
  | cls | ldVxMem =>
    obtain ⟨_, _, rfl⟩ := hwrite
    simp at hp
  | call | drw => obtain rfl | ⟨_, _, rfl⟩ := hwrite <;> simp at hp
  | addReg | sub | shr | subn | shl | rnd => obtain rfl | rfl := hwrite <;> simp at hp
  | ldBVx | ldMemVx =>
    obtain ⟨_, _, _, rfl⟩ := hwrite
    simp at hp
  | _ =>
    obtain rfl := hwrite
    simp at hp

theorem Runs.leavesHostFields (h : Runs i s t) : LeavesHostFields s t := by
  have hkeeps : ∀ p ∈ [Part.kbd, .tmrEpoch, .tmrDone, .fault, .params], Unchanged s t p := by
    intro p hp
    refine h.frame p (not_or.2 ⟨?_, not_mayWrite_of_mem hp⟩)
    rintro rfl
    simp at hp
  exact ⟨hkeeps .kbd (by simp), hkeeps .tmrEpoch (by simp), hkeeps .tmrDone (by simp), hkeeps .fault (by simp),
    hkeeps .params (by simp)⟩

end

/-! ### The statements about what only some instructions do -/

/-- Settles O43: `I` is a part that three instructions may write. -/
theorem whoWritesI : Obligations.WhoWritesI := by
  intro i s t h hne
  have hwrite : MayWrite s i .i := mayWrite_of_changed h nofun nofun hne
  cases i with
  | ldI nnn => exact .inl ⟨nnn, rfl⟩
  | addIVx x => exact .inr ⟨x, .inl rfl⟩
  | ldFVx x => exact .inr ⟨x, .inr rfl⟩
  | _ => simp [MayWrite, InIndexRun] at hwrite

/-- Settles O42: VF is written as the flag or is the destination that the frame names. -/
theorem whoWritesVF : Obligations.WhoWritesVF := by
  intro i s t h hne
  have hwrite : MayWrite s i (.reg VF) := mayWrite_of_changed h nofun nofun hne
  cases i with
  | addReg x y | sub x y | shr x y | subn x y | shl x y => exact .inl ⟨x, y, by simp⟩
  | drw x y n => exact .inr (.inl ⟨x, y, n, rfl⟩)
  | ldImm x kk | addImm x kk =>
    cases hwrite
    exact .inr (.inr (.inl ⟨kk, by simp⟩))
  | rnd x kk =>
    cases hwrite.resolve_right nofun
    exact .inr (.inr (.inl ⟨kk, by simp⟩))
  | ldReg x y | orReg x y | andReg x y | xorReg x y =>
    cases hwrite
    exact .inr (.inr (.inr (.inl ⟨y, by simp⟩)))
  | ldVxDt x | ldVxK x =>
    cases hwrite
    simp
  | ldVxMem x =>
    obtain ⟨k, hk, hVF⟩ := hwrite
    cases hVF
    have hx : x = VF := le_antisymm (Fin.le_last x) hk
    simp [hx]
  | _ => simp [MayWrite, InIndexRun] at hwrite

/-- Settles O44: the stack pointer is a part of RET and CALL, a slot one of CALL alone, at the stack pointer. -/
theorem whoTouchesTheStack : Obligations.WhoTouchesTheStack := by
  intro i s t h
  constructor
  · intro hne
    have hwrite : MayWrite s i .sp := mayWrite_of_changed h nofun nofun hne
    cases i with
    | ret => exact .inl rfl
    | call nnn => exact .inr ⟨nnn, rfl⟩
    | _ => simp [MayWrite, InIndexRun] at hwrite
  · intro j hne
    have hwrite : MayWrite s i (.slot j) := mayWrite_of_changed h nofun nofun hne
    cases i with
    | call nnn =>
      obtain ⟨k, hk, hjk⟩ := hwrite.resolve_left nofun
      cases hjk
      exact ⟨hk, nnn, rfl⟩
    | _ => simp [MayWrite, InIndexRun] at hwrite

/-- Settles O45: a byte that changed is one of the run at `I` of LD B or LD [I]. -/
theorem whoWritesMemory : Obligations.WhoWritesMemory := by
  intro i s t a h hne
  have hwrite : MayWrite s i (.byte a) := mayWrite_of_changed h nofun nofun hne
  cases i with
  | ldBVx x =>
    obtain ⟨k, hk, hin, ha⟩ := hwrite
    cases ha
    exact ⟨hin, Nat.le_add_right _ _, x, .inl ⟨rfl, Nat.add_lt_add_left hk _⟩⟩
  | ldMemVx x =>
    obtain ⟨k, hk, hin, ha⟩ := hwrite
    cases ha
    exact ⟨hin, Nat.le_add_right _ _, x, .inr ⟨rfl, Nat.add_lt_add_left hk _⟩⟩
  | _ => simp [MayWrite] at hwrite

/-- Settles O46: but for CLS and DRW the framebuffer is the same list. -/
theorem whoWritesPixels : Obligations.WhoWritesPixels := by
  intro i s t h hne
  obtain hruns | ⟨r, rfl⟩ := runs_or_latched h
  · obtain ⟨hcls, -⟩ | ⟨x, y, n, hdrw, -⟩ := hruns.fb.resolve_left hne
    · exact .inl hcls
    · exact .inr ⟨x, y, n, hdrw⟩
  · exact absurd rfl hne

/-- Settles O47: the host's fields are no instruction's parts, and each timer is a part of one. -/
theorem instructionsLeaveTimersAndKeys : Obligations.InstructionsLeaveTimersAndKeys := by
  intro i s t h
  have hhost : t.kbd = s.kbd ∧ t.tmrEpoch = s.tmrEpoch ∧ t.tmrDone = s.tmrDone ∧ t.params = s.params := by
    obtain hruns | ⟨r, rfl⟩ := runs_or_latched h
    · have hleaves := hruns.leavesHostFields
      exact ⟨hleaves.kbd, hleaves.tmrEpoch, hleaves.tmrDone, hleaves.params⟩
    · exact ⟨rfl, rfl, rfl, rfl⟩
  obtain ⟨hkbd, hepoch, hdone, hparams⟩ := hhost
  refine ⟨hkbd, hepoch, hdone, hparams, fun hne => ?_, fun hne => ?_⟩
  · have hwrite : MayWrite s i .dt := mayWrite_of_changed h nofun nofun hne
    cases i with
    | ldDtVx x => exact ⟨x, rfl⟩
    | _ => simp [MayWrite, InIndexRun] at hwrite
  · have hwrite : MayWrite s i .st := mayWrite_of_changed h nofun nofun hne
    cases i with
    | ldStVx x => exact ⟨x, rfl⟩
    | _ => simp [MayWrite, InIndexRun] at hwrite

/-- Settles O48: with the latch clear a report of a fault is of one that the instruction may raise. -/
theorem whoRaisesWhat : Obligations.WhoRaisesWhat := by
  intro d i s r hlatch h
  obtain ⟨t, ht, hruns⟩ | ⟨f, hmay, hf⟩ := execWith_runsOrRaises d i s
  · simp [execReport, ht, hruns.leavesHostFields.fault, hlatch] at h
  · have hr : f.record s.pc (some (encode i)) = r := by simpa [execReport, hf] using h
    subst hr
    cases i with
    | ret =>
      cases hmay
      exact .inl ⟨rfl, rfl⟩
    | call nnn =>
      cases hmay
      exact .inr (.inl ⟨rfl, nnn, rfl⟩)
    | jpV0 | drw | ldBVx | ldMemVx | ldVxMem =>
      obtain ⟨a, -, rfl⟩ := hmay
      exact .inr (.inr (.inl ⟨rfl, by simp⟩))
    | skp | sknp =>
      obtain ⟨v, -, rfl⟩ := hmay
      exact .inr (.inr (.inr ⟨rfl, by simp⟩))
    | _ => exact hmay.elim

/-! ### The form of a fault record -/

/-- A record of a fault that the instruction may raise has the form of 60_exceptions R201. -/
theorem MayRaise.record_wf {i : Instr} {f : Raise} (h : MayRaise i f) (pc : Word) :
    (f.record pc (some (encode i))).wf = true := by
  cases i with
  | ret | call =>
    cases h
    simp [FaultRecord.wf, kindFrom, Raise.record]
  | jpV0 | drw | ldBVx | ldMemVx | ldVxMem =>
    obtain ⟨a, ha, rfl⟩ := h
    simp [FaultRecord.wf, kindFrom, Raise.record, ha]
  | skp | sknp =>
    obtain ⟨v, hv, rfl⟩ := h
    simp [FaultRecord.wf, kindFrom, Raise.record, hv]
  | _ => exact h.elim

theorem record_wf_unimplemented {op : Word} (h : decode op = none) (pc : Word) :
    (Raise.unimplemented.record pc (some op)).wf = true := by
  simp [FaultRecord.wf, kindFrom, Raise.record, h]

theorem record_wf_fetch {a : Nat} (h : memSize ≤ a) (pc : Word) : ((Raise.memoryRange a).record pc none).wf = true := by
  simp [FaultRecord.wf, kindFrom, Raise.record, h]

/-! ### The invariant over a step -/

section
variable {s t : State} {i : Instr}

/-- A record of R201 that names `PC` may be latched. -/
theorem State.Inv.latches (h : s.Inv) {r : FaultRecord} (hwf : r.wf = true) (hpc : r.pc = s.pc) :
    (s.setFault (some r)).Inv where
  params := h.params
  mem := h.mem
  fb := h.fb
  pc := h.pc
  stack := h.stack
  latch := fun _ hr => Option.some.inj hr ▸ ⟨hwf, hpc⟩
  clock := h.clock

/-- The reset operation needs nothing of the state but legal parameters (70_reset R240). -/
theorem State.inv_resetOp (h : s.params.wf = true) : s.resetOp.Inv where
  params := h
  mem := rfl
  fb := rfl
  pc := show (0x200 : Word).toNat ≤ 0x1002 by decide
  stack := fun j => (congrArg BitVec.toNat (CoreState.reset_stack_getElem j)).trans_le (by decide)
  latch := nofun
  clock := fun _ => rfl

theorem Params.wf_iff (p : Params) : p.wf = true ↔ 1 ≤ p.height ∧ 1 ≤ p.tsHz ∧ p.onRgb ≠ p.offRgb := by
  simp [Params.wf, and_assoc]

/-- `PC` after an instruction that could be fetched (10_state R36). -/
theorem NextPc.toNat_le (hstack : ∀ j : Fin 16, s.stack[j].toNat ≤ 0x1000) (hfetch : s.pc.toNat ≤ 0xFFE) {a : Word}
    (h : NextPc s a) : a.toNat ≤ 0x1002 := by
  cases h with
  | wait => omega
  | advance => bv_omega
  | skip => bv_omega
  | jump h => exact h.le.trans (by decide)
  | pop j => exact (hstack j).trans (by decide)

/-- An instruction that could be fetched and raises nothing keeps the invariant. -/
theorem State.Inv.runs (h : s.Inv) (hlatch : s.fault = none) (hfetch : s.pc.toNat ≤ 0xFFE) (hruns : Runs i s t) :
    t.Inv := by
  obtain ⟨-, hepoch, hdone, hfault, hparams⟩ := hruns.leavesHostFields
  obtain ⟨hheight, -, -⟩ := (Params.wf_iff s.params).1 h.params
  refine ⟨hparams ▸ h.params, ?_, ?_, hruns.pc.toNat_le h.stack hfetch, fun j => ?_, ?_, ?_⟩
  · obtain hmem | ⟨l, hin, hmem⟩ := hruns.mem
    · exact hmem ▸ h.mem
    · exact hmem ▸ Memory.wf_writeBytes h.mem l hin
  · rw [hparams]
    obtain hfb | ⟨-, hfb⟩ | ⟨x, y, n, -, hfb⟩ := hruns.fb
    · exact hfb ▸ h.fb
    · rw [hfb]
      rfl
    · rw [hfb, ← blit_indexRun]
      exact wf_blit hheight h.fb _ _ _
  · obtain hslot | hslot := hruns.stack j
    · exact hslot ▸ h.stack j
    · rw [hslot]
      bv_omega
  · rw [hfault, hlatch]
    exact nofun
  · rw [hepoch, hdone]
    exact h.clock

theorem State.Inv.takeFault_unimplemented (h : s.Inv) {op : Word} (hdecode : decode op = none) :
    (s.takeFault .unimplemented (some op)).Inv := by
  obtain ⟨hlatch, -⟩ | ⟨hreset, -⟩ := s.takeFault_cases .unimplemented (some op)
  · rw [hlatch]
    exact h.latches (record_wf_unimplemented hdecode s.pc) rfl
  · rw [hreset]
    exact State.inv_resetOp h.params

/-- Every cycle keeps the invariant, whichever way its instructions run. -/
theorem State.Inv.cycle (h : s.Inv) {run : Instr → State → Host.Outcome State Fault Refusal}
    (hrun : ∀ i, RunsOrRaises i s (run i s)) (hnext : cycle run s = .next t) : t.Inv := by
  obtain ⟨r, -, hhalt⟩ | ⟨-, -, hrange⟩ | ⟨op, -, -, -, hdecode, hunimpl⟩ | ⟨op, i, hlatch, hfetch, -, -, hinstr⟩ :=
    cycle_cases run s
  · cases hnext.symm.trans hhalt
  · cases hnext.symm.trans hrange
    exact h.latches (record_wf_fetch (le_max_right _ _) s.pc) rfl
  · cases hnext.symm.trans hunimpl
    exact h.takeFault_unimplemented hdecode
  · obtain ⟨u, hu, hruns⟩ | ⟨f, hmay, hf⟩ := hrun i
    · cases hnext.symm.trans (hinstr.trans hu)
      exact h.runs hlatch hfetch hruns
    · cases hnext.symm.trans (hinstr.trans hf)
      exact h.latches (hmay.record_wf s.pc) (f.record_pc _ _)

/-! ### The invariant over the host's operations -/

theorem State.Inv.setMem (h : s.Inv) {m : Memory} (hm : m.wf = true) : (s.setMem m).Inv :=
  ⟨h.params, hm, h.fb, h.pc, h.stack, h.latch, h.clock⟩

theorem State.Inv.setKbd (h : s.Inv) (k : Word) : (s.setKbd k).Inv :=
  ⟨h.params, h.mem, h.fb, h.pc, h.stack, h.latch, h.clock⟩

theorem State.Inv.decay (h : s.Inv) (k : Nat) : (s.decay k).Inv :=
  ⟨h.params, h.mem, h.fb, h.pc, h.stack, h.latch, h.clock⟩

/-- The clock is started, with any count, or not started and without one (10_state R43). -/
theorem State.Inv.setTimerClock (h : s.Inv) (epoch done : Nat) : (s.setTimerClock (some epoch) done).Inv :=
  ⟨h.params, h.mem, h.fb, h.pc, h.stack, h.latch, nofun⟩

theorem State.Inv.timerUpdate (h : s.Inv) (now : Nat) : (s.timerUpdate now).Inv := by
  unfold State.timerUpdate
  split
  · exact h.setTimerClock now 0
  · split
    · exact h
    · split
      · exact (h.decay _).setTimerClock _ _
      · exact (h.decay _).setTimerClock _ _

theorem State.Inv.loadRom (h : s.Inv) (rom : List Byte) : (s.loadRom rom).Inv := by
  unfold State.loadRom
  split
  · rename_i hfits
    exact h.setMem (Memory.wf_writeBytes h.mem rom (by simp only [romFits, progBase, memSize] at *; omega))
  · exact h

theorem State.Inv.loadFont (h : s.Inv) (font : Vector Byte 80) : (s.loadFont font).Inv :=
  h.setMem (Memory.wf_writeBytes h.mem font.toList (by rw [font.length_toList]; decide))

theorem State.Inv.afterStep (h : s.Inv) (d : Byte) : (s.afterStep d).Inv := by
  unfold State.afterStep
  split
  case h_1 t hnext => exact h.cycle (fun i => execWith_runsOrRaises d i s) hnext
  case h_2 | h_3 => exact h

theorem State.Inv.hostOp (h : s.Inv) (o : HostOp) : (hostOp o s).1.Inv := by
  cases o with
  | step d => exact h.afterStep d
  | reset => exact State.inv_resetOp h.params
  | timerUpdate now => exact h.timerUpdate now
  | keyDown k | keyUp k => exact h.setKbd _
  | loadFont bytes => exact h.loadFont bytes
  | loadRom rom => exact h.loadRom rom
  | observe => exact h

theorem State.Inv.runOps (h : s.Inv) (ops : List HostOp) : (runOps s ops).Inv := by
  induction ops generalizing s with
  | nil => exact h
  | cons o rest ih => exact ih (h.hostOp o)

end

/-! ### The statements about the invariant -/

/-- Settles O54: the state after reset is the reset of itself, and its parameters are legal. -/
theorem resetMeetsInvariant : Obligations.ResetMeetsInvariant :=
  ⟨State.inv_resetOp (s := State.reset) (by decide), fun _ h => State.inv_resetOp h⟩

/-- Settles O55: a step is a cycle around `exec`, and every instruction runs or raises. -/
theorem stepKeepsInvariant : Obligations.StepKeepsInvariant := by
  intro s t h
  exact h.cycle fun i => exec_runsOrRaises i s

/-- Settles O56, by induction on the list of operations. -/
theorem hostRunsKeepInvariant : Obligations.HostRunsKeepInvariant := by
  intro ops s h
  exact h.runOps ops

/-- Settles O57: after the reset every run keeps the invariant, whose bound on `PC` leaves room for 4. -/
theorem pcNeverWraps : Obligations.PcNeverWraps := by
  intro ops s h
  have hinv : (runOps s (.reset :: ops)).Inv := (State.inv_resetOp h).runOps ops
  have hpc := hinv.pc
  exact ⟨hpc, by bv_omega⟩

/-! ### The draw as an argument -/

section
variable {run run' : Instr → State → Host.Outcome State Fault Refusal} {s : State}

/-- A cycle looks at the running of the fetched instruction alone. -/
theorem cycle_congr (h : ∀ op i, fetch s = .ok op → decode op = some i → run i s = run' i s) :
    cycle run s = cycle run' s := by
  unfold cycle
  split
  · rfl
  · split
    · rfl
    · split
      · rfl
      · exact h _ _ ‹_› ‹_›

end

/-! ### The host's step, case by case -/

section
variable {s t : State} {d : Byte}

/-- The latch is set (60_exceptions R205). -/
theorem hostOp_step_of_latched {r : FaultRecord} (hlatch : s.fault = some r) :
    hostOp (.step d) s = (s, .halted r) := by
  simp [hostOp, State.afterStep, stepWith, cycle, stepReport, hlatch]

/-- The fetch raises (30_encoding R80). -/
theorem hostOp_step_of_fetch_error {f : Raise} (hlatch : s.fault = none) (hfetch : fetch s = .error f) :
    hostOp (.step d) s = (s.takeFault f none, .raised (f.record s.pc none)) := by
  simp [hostOp, State.afterStep, stepWith, cycle, stepReport, hlatch, hfetch]

/-- The word does not decode (60_exceptions R206). -/
theorem hostOp_step_of_decode_none {op : Word} (hlatch : s.fault = none) (hfetch : fetch s = .ok op)
    (hdecode : decode op = none) : hostOp (.step d) s =
      (s.takeFault .unimplemented (some op), .raised (Raise.unimplemented.record s.pc (some op))) := by
  simp [hostOp, State.afterStep, stepWith, cycle, stepReport, hlatch, hfetch, hdecode]

/-- The instruction at `PC` runs. -/
theorem hostOp_step_of_execWith {op : Word} {i : Instr} (hlatch : s.fault = none) (hfetch : fetch s = .ok op)
    (hdecode : decode op = some i) (hrun : execWith d i s = .next t) :
    hostOp (.step d) s = (t, execReport d i s) := by
  simp [hostOp, State.afterStep, stepWith, cycle, stepReport, hlatch, hfetch, hdecode, hrun]

end

/-- Settles O5: a latched step is inert, and that every other operation but reset keeps the latch is
`hostOpsIgnoreLatch` at the latch that is set. -/
theorem haltedStepIsInert : Obligations.HaltedStepIsInert := by
  intro s r hlatch
  have hself : s.setFault (some r) = s := hlatch ▸ rfl
  have hstep : ∀ d, hostOp (.step d) s = (s, .halted r) := fun d => hostOp_step_of_latched hlatch
  refine ⟨by simp [step, cycle, hlatch], hstep, fun o hreset => ?_, rfl⟩
  by_cases ho : ∃ d, o = .step d
  · obtain ⟨d, rfl⟩ := ho
    rw [hstep]
    exact hlatch
  · obtain ⟨hkeeps, -⟩ := hostOpsIgnoreLatch s (some r)
    have hsame := (hkeeps o (fun d hd => ho ⟨d, hd⟩) hreset).1
    rw [hself] at hsame
    rw [hsame, State.setFault_fault]

/-! ### The draw counter cannot be observed -/

/-- The state with another draw counter. -/
def State.setDraws (s : State) (n : Nat) : State := { s with draws := n }

/-- An effect that neither reads nor writes the draw counter. -/
def IgnoresDraws (body : State → Except Raise State) : Prop :=
  ∀ u n, body (u.setDraws n) = (body u).map (·.setDraws n)

/-- Two outcomes are one state but for the draw counter. -/
def SameButDraws (o o' : Host.Outcome State Fault Refusal) : Prop := ∃ t n, o = .next t ∧ o' = .next (t.setDraws n)

section
variable (s : State) (n : Nat)

theorem takeFault_setDraws (f : Raise) (op : Option Word) :
    (s.setDraws n).takeFault f op = (s.takeFault f op).setDraws n := by
  by_cases h : f = .unimplemented ∧ s.params.unimplPolicy = .reset
  · rw [s.takeFault_of_reset op h]
    exact State.takeFault_of_reset (s.setDraws n) op h
  · rw [s.takeFault_of_not_reset op h]
    exact State.takeFault_of_not_reset (s.setDraws n) op h

theorem exec_setDraws {i : Instr} {body : State → Except Raise State}
    (hexec : ∀ u, exec i u = complete (encode i) body u) (h : IgnoresDraws body) :
    SameButDraws (exec i s) (exec i (s.setDraws n)) := by
  have hbody : body (s.setDraws n).advance = (body s.advance).map (·.setDraws n) := h s.advance n
  obtain ⟨t, ht, hnext⟩ | ⟨f, hf, hnext⟩ := complete_cases (encode i) body s
  · rw [ht] at hbody
    exact ⟨t, n, (hexec s).trans hnext, (hexec _).trans (complete_ok hbody)⟩
  · rw [hf] at hbody
    have hfault := takeFault_setDraws s n f (some (encode i))
    exact ⟨_, n, (hexec s).trans hnext, (hexec _).trans ((complete_error hbody).trans (congrArg _ hfault))⟩

theorem popPc_ignoresDraws : IgnoresDraws State.popPc := by
  intro u n
  obtain hzero | hpos := Nat.eq_zero_or_pos u.sp.val
  · rw [u.popPc_of_zero hzero]
    exact State.popPc_of_zero (u.setDraws n) hzero
  · rw [u.popPc_of_pos hpos]
    exact State.popPc_of_pos (u.setDraws n) hpos

theorem pushPc_ignoresDraws (a : Word) : IgnoresDraws (·.pushPc a) := by
  intro u n
  obtain hlt | hfull := Nat.lt_or_eq_of_le (Nat.le_of_lt_succ u.sp.isLt)
  · simp only [u.pushPc_of_lt a hlt]
    exact State.pushPc_of_lt (u.setDraws n) a hlt
  · simp only [u.pushPc_of_full a hfull]
    exact State.pushPc_of_full (u.setDraws n) a hfull

theorem checkRange_setDraws (a k : Nat) :
    checkRange a k (s.setDraws n) = (checkRange a k s).map (·.setDraws n) := by
  unfold checkRange
  split <;> rfl

theorem loadRegsFrom_setDraws (j : Nat) (l : List Byte) :
    (s.setDraws n).loadRegsFrom j l = (s.loadRegsFrom j l).setDraws n := by
  induction l generalizing s j with
  | nil => rfl
  | cons b rest ih =>
    simp only [State.loadRegsFrom]
    split
    · exact ih (s.setReg _ b) (j + 1)
    · rfl

theorem skipIf_setDraws (c : Bool) : (s.setDraws n).skipIf c = (s.skipIf c).setDraws n := by
  cases c <;> rfl

theorem skipOnKey_ignoresDraws (x : Reg) (down : Bool) : IgnoresDraws (skipOnKey · x down) := by
  intro u n
  obtain ⟨d, hd⟩ | hraise := keyIsDown_cases u.params.keyRangePolicy u.kbd (u.reg x)
  · simp only [skipOnKey_of_ok hd]
    exact (skipOnKey_of_ok (u := u.setDraws n) hd).trans (congrArg _ (skipIf_setDraws u n _))
  · simp only [skipOnKey_of_error hraise]
    exact skipOnKey_of_error (u := u.setDraws n) hraise

/-- Every instruction given its draw runs the same whatever the draw counter is (30_encoding R91). -/
theorem execWith_setDraws (d : Byte) (i : Instr) : SameButDraws (execWith d i s) (execWith d i (s.setDraws n)) := by
  cases i with
  | ret => exact exec_setDraws s n exec_ret popPc_ignoresDraws
  | call nnn => exact exec_setDraws s n (exec_call · nnn) (pushPc_ignoresDraws _)
  | jpV0 nnn =>
    obtain hlt | hle := Nat.lt_or_ge (v0Target s nnn) memSize
    · exact ⟨_, n, exec_jpV0_of_lt s nnn hlt, exec_jpV0_of_lt (s.setDraws n) nnn hlt⟩
    · exact ⟨_, n, exec_jpV0_of_le s nnn hle, exec_jpV0_of_le (s.setDraws n) nnn hle⟩
  | seImm | sneImm | seReg | sneReg => exact ⟨_, n, rfl, congrArg Host.Outcome.next (skipIf_setDraws s.advance n _)⟩
  | skp x => exact exec_setDraws s n (exec_skp · x) (skipOnKey_ignoresDraws x true)
  | sknp x => exact exec_setDraws s n (exec_sknp · x) (skipOnKey_ignoresDraws x false)
  | rnd x kk => exact ⟨_, n + 1, rfl, rfl⟩
  | drw x y k => exact exec_setDraws s n (exec_drw · x y k) fun u m => checkRange_setDraws (drawSprite u _ _ _) m _ _
  | ldBVx x => exact exec_setDraws s n (exec_ldBVx · x) fun u m => checkRange_setDraws (u.setMem _) m _ _
  | ldMemVx x => exact exec_setDraws s n (exec_ldMemVx · x) fun u m => checkRange_setDraws (u.setMem _) m _ _
  | ldVxMem x =>
    exact exec_setDraws s n (exec_ldVxMem · x) fun u m =>
      (congrArg _ (loadRegsFrom_setDraws u m 0 _)).trans (checkRange_setDraws _ m _ _)
  | ldVxK x =>
    cases hkey : lowestKey s.kbd with
    | none => exact ⟨_, n, exec_ldVxK_none s x hkey, exec_ldVxK_none (s.setDraws n) x hkey⟩
    | some k => exact ⟨_, n, exec_ldVxK_some s x hkey, exec_ldVxK_some (s.setDraws n) x hkey⟩
  | _ => exact ⟨_, n, rfl, rfl⟩

theorem hostOp_step_setDraws (d : Byte) :
    ∃ m, hostOp (.step d) (s.setDraws n) = ((hostOp (.step d) s).1.setDraws m, (hostOp (.step d) s).2) := by
  have hfetch' : fetch (s.setDraws n) = fetch s := rfl
  cases hlatch : s.fault with
  | some r =>
    rw [hostOp_step_of_latched hlatch]
    exact ⟨n, hostOp_step_of_latched (s := s.setDraws n) hlatch⟩
  | none =>
    have hlatch' : (s.setDraws n).fault = none := hlatch
    cases hfetch : fetch s with
    | error f =>
      rw [hostOp_step_of_fetch_error hlatch hfetch, hostOp_step_of_fetch_error hlatch' (hfetch'.trans hfetch),
        takeFault_setDraws]
      exact ⟨n, rfl⟩
    | ok op =>
      cases hdecode : decode op with
      | none =>
        rw [hostOp_step_of_decode_none hlatch hfetch hdecode,
          hostOp_step_of_decode_none hlatch' (hfetch'.trans hfetch) hdecode, takeFault_setDraws]
        exact ⟨n, rfl⟩
      | some i =>
        obtain ⟨t, m, ht, ht'⟩ := execWith_setDraws s n d i
        have hreport : execReport d i (s.setDraws n) = execReport d i s := by
          simp only [execReport, ht, ht']
          rfl
        rw [hostOp_step_of_execWith hlatch hfetch hdecode ht,
          hostOp_step_of_execWith hlatch' (hfetch'.trans hfetch) hdecode ht', hreport]
        exact ⟨m, rfl⟩

theorem timerUpdate_setDraws (now : Nat) : (s.setDraws n).timerUpdate now = (s.timerUpdate now).setDraws n := by
  cases hepoch : s.tmrEpoch with
  | none =>
    rw [s.timerUpdate_of_none now hepoch]
    exact State.timerUpdate_of_none (s.setDraws n) now hepoch
  | some epoch =>
    obtain hlt | hle := Nat.lt_or_ge now epoch
    · rw [s.timerUpdate_of_lt hepoch hlt]
      exact State.timerUpdate_of_lt (s.setDraws n) hepoch hlt
    · cases hacc : s.params.timerAccounting with
      | driftFree =>
        rw [s.timerUpdate_of_driftFree hepoch hle hacc]
        exact State.timerUpdate_of_driftFree (s.setDraws n) hepoch hle hacc
      | anchorNow =>
        rw [s.timerUpdate_of_anchorNow hepoch hle hacc]
        exact State.timerUpdate_of_anchorNow (s.setDraws n) hepoch hle hacc

/-- No operation of the host shows the draw counter. -/
theorem hostOp_setDraws (o : HostOp) :
    ∃ m, hostOp o (s.setDraws n) = ((hostOp o s).1.setDraws m, (hostOp o s).2) := by
  cases o with
  | step d => exact hostOp_step_setDraws s n d
  | timerUpdate now => exact ⟨n, congrArg (·, HostResult.ok) (timerUpdate_setDraws s n now)⟩
  | loadRom rom =>
    by_cases hfits : romFits rom
    · rw [hostOp_loadRom_of_fits _ hfits, hostOp_loadRom_of_fits _ hfits]
      exact ⟨n, rfl⟩
    · rw [hostOp_loadRom_of_not_fits _ hfits, hostOp_loadRom_of_not_fits _ hfits]
      exact ⟨n, rfl⟩
  | reset | keyDown | keyUp | loadFont | observe => exact ⟨n, rfl⟩

/-! ### The parameters are never written -/

theorem takeFault_params (f : Raise) (op : Option Word) : (s.takeFault f op).params = s.params := by
  obtain ⟨h, -⟩ | ⟨h, -⟩ := s.takeFault_cases f op
  · rw [h, State.setFault_params]
  · rw [h, State.resetOp_params]

theorem timerUpdate_params (now : Nat) : (s.timerUpdate now).params = s.params := by
  unfold State.timerUpdate
  split
  · rfl
  · split
    · rfl
    · split <;> rfl

theorem loadRom_params (rom : List Byte) : (s.loadRom rom).params = s.params := by
  unfold State.loadRom
  split <;> rfl

theorem afterStep_params (d : Byte) : (s.afterStep d).params = s.params := by
  unfold State.afterStep
  split
  case h_1 t hnext =>
    obtain ⟨r, -, hhalt⟩ | ⟨-, -, hrange⟩ | ⟨op, -, -, -, -, hunimpl⟩ | ⟨op, i, -, -, -, -, hinstr⟩ :=
      cycle_cases (execWith d) s
    · cases hnext.symm.trans hhalt
    · cases hnext.symm.trans hrange
      rfl
    · cases hnext.symm.trans hunimpl
      exact takeFault_params s _ _
    · obtain ⟨u, hu, hruns⟩ | ⟨f, -, hf⟩ := execWith_runsOrRaises d i s
      · cases hnext.symm.trans (hinstr.trans hu)
        exact hruns.leavesHostFields.params
      · cases hnext.symm.trans (hinstr.trans hf)
        rfl
  case h_2 | h_3 => rfl

theorem hostOp_params (o : HostOp) : (hostOp o s).1.params = s.params := by
  cases o with
  | step d => exact afterStep_params s d
  | timerUpdate now => exact timerUpdate_params s now
  | loadRom rom => exact loadRom_params s rom
  | reset | keyDown | keyUp | loadFont | observe => rfl

end

/-! ### The statements about the arguments of the operations -/

/-- Settles O59: a cycle looks at the fetched instruction alone, and only RND looks at the draw. -/
theorem onlyRndUsesTheDraw : Obligations.OnlyRndUsesTheDraw := by
  intro s
  refine ⟨cycle_congr fun _ i _ _ => (execWith_draw i s).symm, fun r hrnd => cycle_congr fun op i hfetch hdecode => ?_⟩
  refine execWith_of_ne r s fun x kk hi => hrnd op x kk hfetch ?_
  rw [hdecode, hi]

/-- Settles O60: `coreOp` is the operation on the state with its draw counter at 0, and no operation shows the
counter. -/
theorem operationsDependOnTheirArguments : Obligations.OperationsDependOnTheirArguments := by
  intro o s
  obtain ⟨m, hm⟩ := hostOp_setDraws s 0 o
  have hunder : s.toCoreState.under s.params = s.setDraws 0 := rfl
  refine ⟨?_, hostOp_params s o⟩
  rw [coreOp, hunder, hm]
  rfl

/-! ### The step at a decodable word -/

/-- Settles O3: up to 0xFFE the fetched word is that of the two bytes at `PC`. -/
theorem stepRunsDecodedInstruction : Obligations.StepRunsDecodedInstruction := by
  intro s i hlatch hpc hdecode
  exact cycle_of_decode_some exec hlatch (fetch_of_pc_le hpc) hdecode

/-- Settles O53: the parked word is a jump to `PC`, which is the same state (40_control_flow R102). -/
theorem parkedCoreStaysParked : Obligations.ParkedCoreStaysParked := by
  intro s hparked hlatch
  unfold State.parked at hparked
  split at hparked
  case h_1 => cases hparked
  case h_2 op hfetch =>
    obtain ⟨rfl, hpc⟩ := of_decide_eq_true hparked
    obtain ⟨t, ht, -, -, hself⟩ := jumpSetsPc s (s.pc.setWidth 12)
    have haddr : s.pc.toNat = (s.pc.setWidth 12).toNat := by
      rw [BitVec.toNat_setWidth, Nat.mod_eq_of_lt hpc]
    rw [step, cycle_of_decode_some exec hlatch hfetch (decode_encode _), ht, hself haddr]

/-! ### A CALL and its RET -/

/-- Settles O16: the RET pops the slot that the CALL pushed, at the depth it pushed it from. -/
theorem callThenRetReturns : Obligations.CallThenRetReturns := by
  intro s nnn hlt
  have hj : s.sp.val = (⟨s.sp.val, hlt⟩ : Fin 16).val := rfl
  refine ⟨_, exec_call_of_lt s nnn hj, fun u hsp hstack => ?_⟩
  refine ⟨_, exec_ret_of_succ u (j := ⟨s.sp.val, hlt⟩) (by rw [hsp]; rfl), ?_, rfl⟩
  simp [hstack]

/-! ### RND -/

/-- Settles O25: with the draw of the state RND is the RND that is given it, and it uses the draw up. -/
theorem randomByteIsMasked : Obligations.RandomByteIsMasked := by
  intro s x kk
  obtain ⟨t, ht, hreg, hzero, -, hpc, hframe⟩ := givenDrawIsMasked (Config.randomByte s.draws) s x kk
  have hdraws : t.draws = s.draws + 1 := by
    cases ht
    rfl
  exact ⟨t, ht, hreg, hzero, hdraws, hpc, hframe⟩

/-! ### A fetch of stored bytes -/

/-- Settles O30: the two bytes fetched are the k-th and the next of the registers stored. -/
theorem fetchSeesStoredBytes : Obligations.FetchSeesStoredBytes := by
  intro s x k hmem hin hk
  obtain ⟨t, ht, hbytes, -⟩ := (registerStoreIsPerRegister s x hmem).1 hin
  refine ⟨t, ht, fun u humem hpc => ?_⟩
  have hnext : (k + 1 : Reg).val = k.val + 1 := Fin.val_add_one_of_lt (hk.trans_le (Fin.le_last x))
  have hle : k + 1 ≤ x := Fin.add_one_le_of_lt hk
  have hfetch : u.pc.toNat ≤ 0xFFE := by
    have : k.val < x.val := hk
    simp only [indexAddr] at hpc
    omega
  refine ⟨_, fetch_of_pc_le hfetch, ?_⟩
  have haddr : indexAddr s k + 1 = indexAddr s (k + 1 : Reg) := by rw [hnext]; rfl
  rw [wordOfBytes_toNat, humem, hpc, haddr, hbytes k hk.le, hbytes (k + 1) hle]

/-! ### Sprites -/

/-- Settles O33: no row makes no hit. -/
theorem drawOfNoRowsClearsVF : Obligations.DrawOfNoRowsClearsVF := by
  intro s x y
  have hframe : OnlyChanges (· ∈ [Part.pc, .reg VF]) s ((s.advance.setFb s.fb).setReg VF 0) :=
    onlyChanges_advance_setReg s VF 0
  exact ⟨_, exec_drw_of_inRange (n := 0) (.inl rfl), State.reg_setReg_self _ _ _, rfl, rfl, hframe⟩

/-- Numbers below a modulus that land on one residue from one origin are equal. -/
theorem eq_of_add_mod_eq {a m i j : Nat} (hi : i < m) (hj : j < m) (h : (a + i) % m = (a + j) % m) : i = j :=
  (Nat.ModEq.add_left_cancel' a h).eq_of_lt_of_lt hi hj

theorem snd_of_mem_rowHits {height x0 y0 row : Nat} {b : Byte} {cols : List Nat} {p : Pixel}
    (hp : p ∈ rowHits height x0 y0 row b cols) : p.2 = (y0 + row) % height := by
  obtain ⟨col, -, hcol⟩ := List.mem_filterMap.1 hp
  obtain rfl := Option.some.inj (Option.ite_none_right_eq_some.1 hcol).2
  rfl

/-- The bits of one row land on different columns. -/
theorem nodup_rowHits (height x0 y0 row : Nat) (b : Byte) : (rowHits height x0 y0 row b (List.range 8)).Nodup := by
  refine List.pairwise_filterMap.2 (List.nodup_range.imp_of_mem fun {c c'} hc hc' hne p hp p' hp' hpp => hne ?_)
  obtain rfl := Option.some.inj (Option.ite_none_right_eq_some.1 hp).2
  obtain rfl := Option.some.inj (Option.ite_none_right_eq_some.1 hp').2
  have hlt : ∀ k ∈ List.range 8, k < width := fun k hk => (List.mem_range.1 hk).trans (by decide)
  exact eq_of_add_mod_eq (hlt c hc) (hlt c' hc') (congrArg Prod.fst hpp)

/-- A sprite no taller than the screen does not overlap itself (43_display R166). -/
theorem nodup_spriteHits (s : State) (x y : Reg) {n : Nat} (hn : n ≤ s.params.height) :
    (spriteHits s x y n).Nodup := by
  refine List.nodup_flatMap.2 ⟨fun row _ => nodup_rowHits _ _ _ row _, ?_⟩
  refine List.nodup_range.imp_of_mem fun {r r'} hr hr' hne p hp hp' => hne ?_
  have hlt : ∀ k ∈ List.range n, k < s.params.height := fun k hk => (List.mem_range.1 hk).trans_le hn
  exact eq_of_add_mod_eq (hlt r hr) (hlt r' hr') ((snd_of_mem_rowHits hp).symm.trans (snd_of_mem_rowHits hp'))

section
variable {height : Nat} {ps : List Pixel} {c : Canvas}

theorem Canvas.wf_hits (hc : c.1.wf height = true) (hps : ∀ p ∈ ps, p.1 < width ∧ p.2 < height) :
    (c.hits ps).1.wf height = true := by
  induction ps generalizing c with
  | nil => exact hc
  | cons q ps ih =>
    obtain ⟨⟨hx, hy⟩, hrest⟩ := List.forall_mem_cons.1 hps
    exact ih (Framebuffer.wf_toggle hc hx hy) hrest

/-- The same hits again give back the framebuffer, as each pixel is toggled twice as often (43_display R167). -/
theorem Canvas.hits_twice (hc : c.1.wf height = true) (hps : ∀ p ∈ ps, p.1 < width ∧ p.2 < height) (b : Bool) :
    (Canvas.hits ((c.hits ps).1, b) ps).1 = c.1 := by
  have hfirst : (c.hits ps).1.wf height = true := Canvas.wf_hits hc hps
  refine Framebuffer.ext (Canvas.wf_hits hfirst hps) hc fun x y => ?_
  rw [Canvas.pixel_hits (c := ((c.hits ps).1, b)) hfirst hps, Canvas.pixel_hits hc hps]
  simp

/-- Without self-overlap a pixel collides in the second drawing exactly when it was off before the first. -/
theorem Canvas.collides_twice (hc : c.1.wf height = true) (hps : ∀ p ∈ ps, p.1 < width ∧ p.2 < height)
    (hnodup : ps.Nodup) (b : Bool) (p : Pixel) :
    Canvas.Collides ((c.hits ps).1, b) ps p ↔ p ∈ ps ∧ c.1.pixel p.1 p.2 = false := by
  refine and_congr_right fun hp => ?_
  have hcount : ps.count (p.1, p.2) = 1 := List.count_eq_one_of_mem hnodup hp
  rw [Canvas.pixel_hits hc hps, hcount]
  simp

theorem Canvas.collision_twice (hc : c.1.wf height = true) (hps : ∀ p ∈ ps, p.1 < width ∧ p.2 < height)
    (hnodup : ps.Nodup) :
    (Canvas.hits ((c.hits ps).1, false) ps).2 = true ↔ ∃ p ∈ ps, c.1.pixel p.1 p.2 = false := by
  have hfirst : (c.hits ps).1.wf height = true := Canvas.wf_hits hc hps
  rw [Canvas.collision_hits (c := ((c.hits ps).1, false)) hfirst hps, or_iff_right Bool.false_ne_true]
  exact exists_congr (Canvas.collides_twice hc hps hnodup false)

end

/-- Settles O34: the second DRW draws the same hits on the framebuffer of the first. -/
theorem drawTwiceRestores : Obligations.DrawTwiceRestores := by
  intro s x y n hfb hn hh hin
  have hscreen := onScreen_of_mem_spriteHits x y n hh
  refine ⟨_, exec_drw_of_inRange hin, fun u hufb hmem hi hx hy hparams => ?_⟩
  have hhits : spriteHits u x y n = spriteHits s x y n := by
    unfold spriteHits indexAddr
    rw [hmem, hi, hx, hy, hparams]
  have hcanvas : spriteCanvas u x y n = Canvas.hits ((spriteCanvas s x y n).1, false) (spriteHits s x y n) := by
    rw [spriteCanvas, hhits, hufb]
    rfl
  refine ⟨_, exec_drw_of_inRange (hi ▸ hin), ?_, ?_⟩
  · rw [hcanvas]
    exact Canvas.hits_twice hfb hscreen false
  · rw [State.reg_setReg_self, flagByte_eq_one_iff, hcanvas]
    exact Canvas.collision_twice hfb hscreen (nodup_spriteHits s x y hn)

/-! ### The host's view -/

/-- Settles O35: the row and the column of the view are those of the ranges it is mapped over. -/
theorem hostReadsTwoColours : Obligations.HostReadsTwoColours := by
  intro s hparams
  obtain ⟨-, -, hcolours⟩ := (Params.wf_iff s.params).1 hparams
  refine ⟨hcolours, by simp [State.rgbRows], ?_, fun px py hpx hpy => ?_⟩
  · intro row hrow
    obtain ⟨py, -, rfl⟩ := List.mem_map.1 hrow
    simp
  · simp [State.rgbRows, State.rgb, hpx, hpy]

/-! ### Timer updates one after another -/

/-- From `s` on, the periods counted so far are those that both timers have lost, under `drift_free` accounting from one
epoch. -/
structure DriftFreeFrom (s : State) (epoch : Nat) (t : State) : Prop where
  tmrEpoch : t.tmrEpoch = some epoch
  params : t.params = s.params
  dt : t.dt.toNat = s.dt.toNat - t.tmrDone
  st : t.st.toNat = s.st.toNat - t.tmrDone

section
variable {s t : State} {epoch now : Nat}

theorem wholePeriods_mono (tsHz epoch : Nat) {u v : Nat} (h : u ≤ v) :
    wholePeriods tsHz epoch u ≤ wholePeriods tsHz epoch v :=
  Nat.div_le_div_right (Nat.mul_le_mul_right _ (Nat.sub_le_sub_right h _))

/-- One update counts up to the periods elapsed at its timestamp (60_exceptions R214). -/
theorem DriftFreeFrom.timerUpdate (hacc : s.params.timerAccounting = .driftFree) (h : DriftFreeFrom s epoch t)
    (now : Nat) : DriftFreeFrom s epoch (t.timerUpdate now) ∧
      (t.timerUpdate now).tmrDone = max t.tmrDone (wholePeriods s.params.tsHz epoch now) := by
  obtain ⟨hepoch, hparams, hdt, hst⟩ := h
  obtain hlt | hle := Nat.lt_or_ge now epoch
  · have hnone : wholePeriods s.params.tsHz epoch now = 0 := by
      simp [wholePeriods, Nat.sub_eq_zero_of_le hlt.le]
    rw [t.timerUpdate_of_lt hepoch hlt, hnone]
    exact ⟨⟨hepoch, hparams, hdt, hst⟩, (Nat.max_zero _).symm⟩
  · rw [t.timerUpdate_of_driftFree hepoch hle (hparams ▸ hacc), State.updateDriftFree, hparams]
    refine ⟨⟨rfl, hparams, ?_, ?_⟩, rfl⟩
    · simp only [State.setTimerClock_dt, State.decay_dt, decayed_toNat, State.setTimerClock_tmrDone]
      omega
    · simp only [State.setTimerClock_st, State.decay_st, decayed_toNat, State.setTimerClock_tmrDone]
      omega

/-- After updates of which the last has the latest timestamp, the periods elapsed then are counted. -/
theorem DriftFreeFrom.runOps (hacc : s.params.timerAccounting = .driftFree) (h : DriftFreeFrom s epoch t)
    (hdone : t.tmrDone ≤ wholePeriods s.params.tsHz epoch now) (earlier : List Nat) (hlast : ∀ u ∈ earlier, u ≤ now) :
    DriftFreeFrom s epoch (runOps t ((earlier ++ [now]).map .timerUpdate)) ∧
      (runOps t ((earlier ++ [now]).map .timerUpdate)).tmrDone = wholePeriods s.params.tsHz epoch now := by
  induction earlier generalizing t with
  | nil =>
    obtain ⟨hnext, hmax⟩ := h.timerUpdate hacc now
    exact ⟨hnext, hmax.trans (max_eq_right hdone)⟩
  | cons u rest ih =>
    obtain ⟨hu, hrest⟩ := List.forall_mem_cons.1 hlast
    obtain ⟨hnext, hmax⟩ := h.timerUpdate hacc u
    exact ih hnext (hmax.trans_le (max_le hdone (wholePeriods_mono _ _ hu))) hrest

end

/-- Settles O41: in the state before the updates no period is counted yet. -/
theorem driftFreeCountsWholePeriods : Obligations.DriftFreeCountsWholePeriods := by
  intro s epoch now earlier hepoch hdone hacc hlast
  have hstart : DriftFreeFrom s epoch s := ⟨hepoch, rfl, by simp [hdone], by simp [hdone]⟩
  obtain ⟨⟨-, -, hdt, hst⟩, hcount⟩ := hstart.runOps hacc (hdone.trans_le (Nat.zero_le _)) earlier hlast
  rw [hcount] at hdt hst
  exact ⟨hdt, hst⟩

/-! ### The two loads of the boot sequence -/

/-- Runs of bytes that do not meet may be written in either order. -/
theorem Memory.writeBytes_comm {m : Memory} (hmem : m.wf = true) {a b : Nat} {l l' : List Byte}
    (hab : a + l.length ≤ b) (hb : b + l'.length ≤ memSize) :
    (m.writeBytes a l).writeBytes b l' = (m.writeBytes b l').writeBytes a l := by
  have ha : a + l.length ≤ memSize := by omega
  have hfirst := Memory.wf_writeBytes hmem l ha
  have hsecond := Memory.wf_writeBytes hmem l' hb
  refine Memory.ext (Memory.wf_writeBytes hfirst l' hb) (Memory.wf_writeBytes hsecond l ha) fun c => ?_
  rw [Memory.read_writeBytes hfirst l' hb, Memory.read_writeBytes hmem l ha, Memory.read_writeBytes hsecond l ha,
    Memory.read_writeBytes hmem l' hb]
  split
  · rw [dif_neg (by omega)]
  · rfl

/-- Settles O52: the font ends below 0x200, where the ROM begins. -/
theorem bootLoadsCommute : Obligations.BootLoadsCommute := by
  intro s rom hrom
  have hfits : romFits rom := hrom
  have hfont : s.params.font.toList.length = 80 := s.params.font.length_toList
  have hcomm := Memory.writeBytes_comm (m := []) rfl (a := fontBase) (b := progBase) (l := s.params.font.toList)
    (l' := rom) (by rw [hfont]; decide) (by simp only [progBase, memSize]; omega)
  have hload : ∀ t : State, t.loadRom rom = t.setMem (t.mem.writeBytes progBase rom) := fun t => if_pos hfits
  refine ⟨rfl, ?_, ?_⟩
  · change (s.resetOp.loadFont s.params.font).loadRom rom = (s.resetOp.loadRom rom).loadFont s.params.font
    rw [hload, hload]
    exact congrArg s.resetOp.setMem hcomm
  · rw [State.boot, hload]
    rfl

end Sys2Proof.Machine
end
